-- ==== Sys2Proof/Word.lean ====
section
/-! DEFINITION. The widths of TEA-CORE's data: bytes, words, command words and response words. -/

namespace Sys2Proof

/-- A byte of a buffer, or the operand `imm8` (R14, R74). -/
abbrev Byte := BitVec 8

/-- A 32-bit unsigned word: data word, key word, running sum, round count, `imm32` (R6, R10).
`+`, `-`, `*` wrap modulo 2^32 and `>>>` is the logical shift, as R11 defines them. -/
abbrev Word := BitVec 32

/-- A command word `CMD[39:0]` (R70). -/
abbrev CmdWord := BitVec 40

/-- A response word `RSP[35:0]` (R72). -/
abbrev RspWord := BitVec 36

end Sys2Proof
end

