-- ==== Sys2Proof/Syntax.lean ====
section
/-! DEFINITION. The 23 commands of TEACMD-1 (R75), one constructor per row of the opcode table. -/

namespace Sys2Proof

/-- A command with its operand: none (format N), `imm8` (format B) or `imm32` (format W) (R71, R74).
There are no register-number fields: each opcode names its register. -/
inductive Instr where
  | nop
  | clri
  | pushb (imm8 : Byte)
  | pushw (imm32 : Word)
  | clro
  | popb
  | popw
  | keyld
  | setr (imm32 : Word)
  | rdr
  | wrv0 (imm32 : Word)
  | wrv1 (imm32 : Word)
  | rdv0
  | rdv1
  | ldblk
  | stblk
  | encr
  | decr
  | enc
  | dec
  | rdstat
  | rdbsz
  | rdksz
  deriving DecidableEq, Repr

end Sys2Proof
end

