-- ==== Sys2Proof/WellFormed.lean ====
section
/-! DEFINITION. Well-formed source lines of the assembler notation (R79): what can be assembled and what cannot.
An `Instr` itself carries its operand at the width of its format (R71), so no `Instr` is ill-formed; the checks
are on the numbers a listing writes. -/

namespace Sys2Proof

/-- The three formats (R71). -/
inductive Format where
  | N
  | B
  | W
  deriving DecidableEq, Repr

/-- The 23 mnemonics (R75). -/
inductive Mnemonic where
  | NOP | CLRI | PUSHB | PUSHW | CLRO | POPB | POPW | KEYLD | SETR | RDR | WRV0 | WRV1
  | RDV0 | RDV1 | LDBLK | STBLK | ENCR | DECR | ENC | DEC | RDSTAT | RDBSZ | RDKSZ
  deriving DecidableEq, Repr

/-- The format of each mnemonic (R71, R75). -/
def Mnemonic.format : Mnemonic → Format
  | .PUSHB => .B
  | .PUSHW | .SETR | .WRV0 | .WRV1 => .W
  | .NOP | .CLRI | .CLRO | .POPB | .POPW | .KEYLD | .RDR | .RDV0 | .RDV1 | .LDBLK | .STBLK
  | .ENCR | .DECR | .ENC | .DEC | .RDSTAT | .RDBSZ | .RDKSZ => .N

/-- One line of a listing: a mnemonic and, for formats B and W, one unsigned number (R79). -/
structure SourceLine where
  mnemonic : Mnemonic
  operand  : Option Nat
  deriving DecidableEq, Repr

/-- A format-N line has no operand; a format-B line one below 2^8; a format-W line one below 2^32.
"An operand out of range for its format (`PUSHB 256`) cannot be assembled" (R79). -/
def SourceLine.wellFormed (l : SourceLine) : Bool :=
  match l.mnemonic.format, l.operand with
  | .N, none   => true
  | .N, some _ => false
  | .B, some n => decide (n < 2 ^ 8)
  | .B, none   => false
  | .W, some n => decide (n < 2 ^ 32)
  | .W, none   => false

end Sys2Proof
end

