-- ==== Sys2Proof/Decode.lean ====
section
/-! DEFINITION. The command word: fields (R70), the decoder total on all 2^40 words (R78), the encoder (R78), the
opcode map as data (R75), and the assembling of a source line (R79). -/

namespace Sys2Proof

/-- The field `op`, `CMD[39:32]` (R70). -/
def opField (c : CmdWord) : BitVec 8 := c.extractLsb' 32 8

/-- The field `arg`, `CMD[31:0]` (R70). -/
def argField (c : CmdWord) : Word := c.extractLsb' 0 32

/-- Why a word is illegal: the three cases of R76. -/
inductive Illegal where
  /-- (a) an `op` value that is not in the table. -/
  | unassignedOp
  /-- (b) a format-N opcode with `arg != 0`. -/
  | argNotZero
  /-- (c) `PUSHB` with `arg[31:8] != 0`. -/
  | byteArgTooWide
  deriving DecidableEq, Repr

/-- Format N: every bit of `arg` must be 0 (R71). -/
def decodeN (arg : Word) (i : Instr) : Except Illegal Instr :=
  if arg = 0#32 then .ok i else .error .argNotZero

/-- Format B: `arg[31:8]` must be 0 and `imm8 = arg[7:0]` (R71, R74). -/
def decodeB (arg : Word) (mk : Byte → Instr) : Except Illegal Instr :=
  if arg.extractLsb' 8 24 = 0#24 then .ok (mk (arg.extractLsb' 0 8)) else .error .byteArgTooWide

/-- The decoder of R78. -/
def decode (c : CmdWord) : Except Illegal Instr :=
  match opField c with
  | 0x00#8 => decodeN (argField c) .nop
  | 0x10#8 => decodeN (argField c) .clri
  | 0x11#8 => decodeB (argField c) .pushb
  | 0x12#8 => .ok (.pushw (argField c))
  | 0x13#8 => decodeN (argField c) .clro
  | 0x14#8 => decodeN (argField c) .popb
  | 0x15#8 => decodeN (argField c) .popw
  | 0x20#8 => decodeN (argField c) .keyld
  | 0x21#8 => .ok (.setr (argField c))
  | 0x22#8 => decodeN (argField c) .rdr
  | 0x30#8 => .ok (.wrv0 (argField c))
  | 0x31#8 => .ok (.wrv1 (argField c))
  | 0x32#8 => decodeN (argField c) .rdv0
  | 0x33#8 => decodeN (argField c) .rdv1
  | 0x40#8 => decodeN (argField c) .ldblk
  | 0x41#8 => decodeN (argField c) .stblk
  | 0x50#8 => decodeN (argField c) .encr
  | 0x51#8 => decodeN (argField c) .decr
  | 0x52#8 => decodeN (argField c) .enc
  | 0x53#8 => decodeN (argField c) .dec
  | 0x60#8 => decodeN (argField c) .rdstat
  | 0x61#8 => decodeN (argField c) .rdbsz
  | 0x62#8 => decodeN (argField c) .rdksz
  | _    => .error .unassignedOp

/-- The mnemonic of a command (R75). -/
def Instr.mnemonic : Instr → Mnemonic
  | .nop => .NOP
  | .clri => .CLRI
  | .pushb _ => .PUSHB
  | .pushw _ => .PUSHW
  | .clro => .CLRO
  | .popb => .POPB
  | .popw => .POPW
  | .keyld => .KEYLD
  | .setr _ => .SETR
  | .rdr => .RDR
  | .wrv0 _ => .WRV0
  | .wrv1 _ => .WRV1
  | .rdv0 => .RDV0
  | .rdv1 => .RDV1
  | .ldblk => .LDBLK
  | .stblk => .STBLK
  | .encr => .ENCR
  | .decr => .DECR
  | .enc => .ENC
  | .dec => .DEC
  | .rdstat => .RDSTAT
  | .rdbsz => .RDBSZ
  | .rdksz => .RDKSZ

/-- The opcode of each mnemonic: the column `op` of R75. -/
def Mnemonic.op : Mnemonic → BitVec 8
  | .NOP => 0x00#8
  | .CLRI => 0x10#8
  | .PUSHB => 0x11#8
  | .PUSHW => 0x12#8
  | .CLRO => 0x13#8
  | .POPB => 0x14#8
  | .POPW => 0x15#8
  | .KEYLD => 0x20#8
  | .SETR => 0x21#8
  | .RDR => 0x22#8
  | .WRV0 => 0x30#8
  | .WRV1 => 0x31#8
  | .RDV0 => 0x32#8
  | .RDV1 => 0x33#8
  | .LDBLK => 0x40#8
  | .STBLK => 0x41#8
  | .ENCR => 0x50#8
  | .DECR => 0x51#8
  | .ENC => 0x52#8
  | .DEC => 0x53#8
  | .RDSTAT => 0x60#8
  | .RDBSZ => 0x61#8
  | .RDKSZ => 0x62#8

/-- The operand as the field `arg`: `imm8` with zeros above it, `imm32` as it is, 0 for format N (R71). -/
def Instr.arg : Instr → Word
  | .pushb imm8 => imm8.setWidth 32
  | .pushw imm32 | .setr imm32 | .wrv0 imm32 | .wrv1 imm32 => imm32
  | .nop | .clri | .clro | .popb | .popw | .keyld | .rdr | .rdv0 | .rdv1 | .ldblk | .stblk
  | .encr | .decr | .enc | .dec | .rdstat | .rdbsz | .rdksz => 0#32

/-- The encoder of R78: `op(m) * 2^32` plus the operand. -/
def encode (i : Instr) : CmdWord := i.mnemonic.op ++ i.arg

/-- One row of the opcode map (R75): a word `c` is this command exactly when `c &&& mask = pattern`. -/
structure OpcodeRow where
  mnemonic : Mnemonic
  pattern  : CmdWord
  mask     : CmdWord
  deriving DecidableEq, Repr

/-- The opcode map of R75, the columns `match` and `mask` as they are printed there. -/
def opcodeMap : List OpcodeRow :=
  [⟨.NOP,    0x0000000000, 0xFFFFFFFFFF⟩,
   ⟨.CLRI,   0x1000000000, 0xFFFFFFFFFF⟩,
   ⟨.PUSHB,  0x1100000000, 0xFFFFFFFF00⟩,
   ⟨.PUSHW,  0x1200000000, 0xFF00000000⟩,
   ⟨.CLRO,   0x1300000000, 0xFFFFFFFFFF⟩,
   ⟨.POPB,   0x1400000000, 0xFFFFFFFFFF⟩,
   ⟨.POPW,   0x1500000000, 0xFFFFFFFFFF⟩,
   ⟨.KEYLD,  0x2000000000, 0xFFFFFFFFFF⟩] ++
  [⟨.SETR,   0x2100000000, 0xFF00000000⟩,
   ⟨.RDR,    0x2200000000, 0xFFFFFFFFFF⟩,
   ⟨.WRV0,   0x3000000000, 0xFF00000000⟩,
   ⟨.WRV1,   0x3100000000, 0xFF00000000⟩,
   ⟨.RDV0,   0x3200000000, 0xFFFFFFFFFF⟩,
   ⟨.RDV1,   0x3300000000, 0xFFFFFFFFFF⟩,
   ⟨.LDBLK,  0x4000000000, 0xFFFFFFFFFF⟩,
   ⟨.STBLK,  0x4100000000, 0xFFFFFFFFFF⟩] ++
  [⟨.ENCR,   0x5000000000, 0xFFFFFFFFFF⟩,
   ⟨.DECR,   0x5100000000, 0xFFFFFFFFFF⟩,
   ⟨.ENC,    0x5200000000, 0xFFFFFFFFFF⟩,
   ⟨.DEC,    0x5300000000, 0xFFFFFFFFFF⟩,
   ⟨.RDSTAT, 0x6000000000, 0xFFFFFFFFFF⟩,
   ⟨.RDBSZ,  0x6100000000, 0xFFFFFFFFFF⟩,
   ⟨.RDKSZ,  0x6200000000, 0xFFFFFFFFFF⟩]

/-- The command word that a table word of `nbits` bits stands for: the one word of TEACMD-1 is 40 bits wide (R70),
so the table's numbering is the word's own, and any bit at or above `nbits` is 0. -/
def tableWord (nbits w : Nat) : CmdWord := BitVec.ofNat 40 (w % 2 ^ nbits)

/-- What the decoder reads from a word numbered as the opcode table numbers it. -/
def decodeTableWord (nbits w : Nat) : Option Instr :=
  match decode (tableWord nbits w) with
  | .ok i    => some i
  | .error _ => none

/-- Assemble one source line (R79): an `Instr` exactly for the well-formed lines. -/
def SourceLine.assemble (l : SourceLine) : Option Instr :=
  if l.wellFormed = true then
    let n := l.operand.getD 0
    some (match l.mnemonic with
      | .NOP => .nop
      | .CLRI => .clri
      | .PUSHB => .pushb (BitVec.ofNat 8 n)
      | .PUSHW => .pushw (BitVec.ofNat 32 n)
      | .CLRO => .clro
      | .POPB => .popb
      | .POPW => .popw
      | .KEYLD => .keyld
      | .SETR => .setr (BitVec.ofNat 32 n)
      | .RDR => .rdr
      | .WRV0 => .wrv0 (BitVec.ofNat 32 n)
      | .WRV1 => .wrv1 (BitVec.ofNat 32 n)
      | .RDV0 => .rdv0
      | .RDV1 => .rdv1
      | .LDBLK => .ldblk
      | .STBLK => .stblk
      | .ENCR => .encr
      | .DECR => .decr
      | .ENC => .enc
      | .DEC => .dec
      | .RDSTAT => .rdstat
      | .RDBSZ => .rdbsz
      | .RDKSZ => .rdksz)
  else none

end Sys2Proof
end

