-- ==== Sys2Proof/Config.lean ====
section
/-! DEFINITION. The constants and parameters of R6 and R7; constants, never state (R35). -/

namespace Sys2Proof.Config

/-- `DELTA`, the round increment of the running sum (R6). -/
def delta : Word := 0x9E3779B9#32

/-- `SHL_AMT` (R6). -/
def shlAmt : Nat := 4

/-- `SHR_AMT` (R6). -/
def shrAmt : Nat := 5

/-- `KEY_BYTES` (R6), also what `KSZ` reads (R33). -/
def keyBytes : Nat := 16

/-- `BLOCK_BYTES` (R6), also what `BSZ` reads (R33). -/
def blockBytes : Nat := 8

/-- `DEFAULT_ROUNDS` (R6). -/
def defaultRounds : Word := 32#32

/-- `RCW`, the width of `ROUNDS` and `RCNT`: the one open parameter (R7, D6), 32 in this hardware (log 4). -/
def rcw : Nat := 32

/-- `IBUF_CAP` (R7). -/
def ibufCap : Nat := 16

/-- `OBUF_CAP` (R7). -/
def obufCap : Nat := 8

end Sys2Proof.Config
end

