-- ==== Sys2Proof/Machine/State.lean ====
section
/-! DEFINITION. The state of TEA-CORE (R20), the inputs and outputs of its steps, the reasons a step can stop, and the
state after reset (R36). -/

namespace Sys2Proof.Machine

/-- The sequencer phase `PHASE` (R27). -/
inductive Phase where
  | idle
  | encrypt
  | decrypt
  deriving DecidableEq, Repr

/-- The key register file `K[0..3]` (R21). -/
structure Key where
  k0 : Word
  k1 : Word
  k2 : Word
  k3 : Word
  deriving DecidableEq, Repr

/-- A block as two words, `V[0..1]` (R22). -/
structure Block where
  v0 : Word
  v1 : Word
  deriving DecidableEq, Repr

/-- The complete state of TEA-CORE: exactly the components of R20. -/
structure TeaCore where
  /-- `K[0..3]` (R21). -/
  key    : Key
  /-- `KEYV`: `K` holds a loaded key (R24). -/
  keyv   : Bool
  /-- `ROUNDS`, an `RCW`-bit count held in a word (R23). -/
  rounds : Word
  /-- `V[0..1]` (R22). -/
  v      : Block
  /-- `SUM` (R25). -/
  sum    : Word
  /-- `RCNT`, an `RCW`-bit count held in a word (R26). -/
  rcnt   : Word
  /-- `PHASE` (R27). -/
  phase  : Phase
  /-- `STO`: the finish step must fill `OBUF` (R28). -/
  sto    : Bool
  /-- `IBUF`, index 0 first (R14, R29). -/
  ibuf   : List Byte
  /-- `IOVF`: a push found `IBUF` full (R30). -/
  iovf   : Bool
  /-- `OBUF`, index 0 first (R14, R31). -/
  obuf   : List Byte
  deriving DecidableEq, Repr

/-- What the host and the schedule do in one step to come (R247, U3); an input, not state of TEA-CORE (log 1). -/
inductive Move where
  /-- The host presents a command word on the port (R70, R247). -/
  | present (w : CmdWord)
  /-- The host lets the engine take this step, if an engine step is enabled (R61, U3). -/
  | engine
  /-- `rst` is asserted in this step (R230). -/
  | rst
  /-- The host does something that is not in the table of R247, for instance it changes a held word (U7). -/
  | outsideTable
  deriving DecidableEq, Repr

/-- TEA-CORE together with the inputs and outputs of its steps (log 1). DESIGN CHOICE: `port`, `moves` and
`responses` are the model's own fields; R35 calls them inputs and outputs. -/
structure State where
  /-- The state of R20. -/
  core      : TeaCore
  /-- The command word presented and not yet accepted (R73), if there is one. -/
  port      : Option CmdWord
  /-- The moves of the steps to come, first one first. -/
  moves     : List Move
  /-- The responses given so far, oldest first (R61, R72). -/
  responses : List RspWord
  deriving DecidableEq, Repr

/-- No rule stops TEA-CORE: an error is a response and the machine goes on (R203), an engine step cannot fail
(R148). So no fault exists, and none is raised by any step; nothing here is safe or unsafe. -/
inductive Fault where
  deriving DecidableEq, Repr

/-- The reasons a step gives no next state. -/
inductive Refusal where
  /-- An instruction without a meaning, raised in a refused arm of `exec` only; safe. No arm raises it now. -/
  | notModelled (mnemonic : String)
  /-- Raised by `step` on `Move.outsideTable`, host behaviour outside the table of R247, which U7 says to refuse;
  safe: no claim is made about such a run (log 7). -/
  | hostOutsideTable
  deriving DecidableEq, Repr

/-- The reset value of every component of R20, as the table of R36 gives it. -/
def TeaCore.reset : TeaCore where
  key    := { k0 := 0#32, k1 := 0#32, k2 := 0#32, k3 := 0#32 }
  keyv   := false
  rounds := Config.defaultRounds
  v      := { v0 := 0#32, v1 := 0#32 }
  sum    := 0#32
  rcnt   := 0#32
  phase  := .idle
  sto    := false
  ibuf   := []
  iovf   := false
  obuf   := []

/-- The machine right after reset: the reset state of R36, nothing presented, no move to come, no response given. -/
def State.reset : State where
  core      := TeaCore.reset
  port      := none
  moves     := []
  responses := []

end Sys2Proof.Machine
end

