-- ==== Sys2Proof/Machine/Flags.lean ====
section
/-! DEFINITION. The flags (R34) and the read-only view `STATUS` (R32). `KEYV`, `IOVF` and `STO` are stored; `BUSY`,
`ICNT` and `OCNT` are derived. There are no arithmetic condition codes. -/

namespace Sys2Proof.Machine

/-- `BUSY`: `PHASE != IDLE` (R18, R32). -/
def busy (c : TeaCore) : Bool := decide (c.phase ≠ .idle)

/-- `ICNT = len(IBUF)` (R14). -/
def icnt (c : TeaCore) : Nat := c.ibuf.length

/-- `OCNT = len(OBUF)` (R14). -/
def ocnt (c : TeaCore) : Nat := c.obuf.length

/-- `STATUS = { 0[31:20], OCNT[19:16], 0[15:13], ICNT[12:8], 0[7:3], IOVF[2], KEYV[1], BUSY[0] }` (R32, R123). -/
def status (c : TeaCore) : Word :=
  BitVec.ofNat 12 0 ++ BitVec.ofNat 4 (ocnt c) ++ BitVec.ofNat 3 0 ++ BitVec.ofNat 5 (icnt c) ++ BitVec.ofNat 5 0 ++
    BitVec.ofBool c.iovf ++ BitVec.ofBool c.keyv ++ BitVec.ofBool (busy c)

end Sys2Proof.Machine
end

