-- ==== Sys2Proof/Machine/Operands.lean ====
section
/-! DEFINITION. Operand forms: the conversions between bytes and words (R14, R53), the key and block forms of the input
buffer (R54, R55, R100, R170), and the memory primitives of R14. The operands `imm8` and `imm32` are used as they
are (R74). -/

namespace Sys2Proof.Machine

/-- `be32(b0, b1, b2, b3) = b0 * 2^24 + b1 * 2^16 + b2 * 2^8 + b3`: `b0` is the most significant byte (R14, R53). -/
def be32 (b0 b1 b2 b3 : Byte) : Word := b0 ++ b1 ++ b2 ++ b3

/-- `bytes_be(v) = [v[31:24], v[23:16], v[15:8], v[7:0]]` (R14). -/
def bytesBe (v : Word) : List Byte :=
  [v.extractLsb' 24 8, v.extractLsb' 16 8, v.extractLsb' 8 8, v.extractLsb' 0 8]

/-- `MemRead(B, i, 1)`; none where the index is not below `len(B)` (R14). -/
def memRead1 (b : List Byte) (i : Nat) : Option Byte := b[i]?

/-- `MemRead(B, i, 4)`; none where an index it touches is not below `len(B)` (R14). -/
def memRead4 (b : List Byte) (i : Nat) : Option Word :=
  match b.drop i with
  | b0 :: b1 :: b2 :: b3 :: _ => some (be32 b0 b1 b2 b3)
  | _ => none

/-- `MemWrite(B, i, 4, v)` (R14). -/
def memWrite4 (b : List Byte) (i : Nat) (v : Word) : List Byte :=
  (((b.set i (v.extractLsb' 24 8)).set (i + 1) (v.extractLsb' 16 8)).set (i + 2) (v.extractLsb' 8 8)).set (i + 3)
    (v.extractLsb' 0 8)

/-- `KX`: four key words from exactly 16 bytes (R54, R100); none for any other number of bytes. -/
def kx : List Byte → Option Key
  | [b0, b1, b2, b3, b4, b5, b6, b7, b8, b9, b10, b11, b12, b13, b14, b15] =>
    some { k0 := be32 b0 b1 b2 b3, k1 := be32 b4 b5 b6 b7, k2 := be32 b8 b9 b10 b11, k3 := be32 b12 b13 b14 b15 }
  | _ => none

/-- `BytesToBlock`: two words from exactly 8 bytes (R55, R170); none for any other number of bytes. -/
def bytesToBlock : List Byte → Option Block
  | [b0, b1, b2, b3, b4, b5, b6, b7] => some { v0 := be32 b0 b1 b2 b3, v1 := be32 b4 b5 b6 b7 }
  | _ => none

/-- `BlockToBytes` (R55, R170). -/
def blockToBytes (v : Block) : List Byte := bytesBe v.v0 ++ bytesBe v.v1

/-- The key that `KEYLD` consumes: none when `ICNT != 16` or `IOVF = 1` (R57, R104). -/
def keyIn (c : TeaCore) : Option Key := if c.iovf = true then none else kx c.ibuf

/-- The block that `LDBLK`, `ENC` and `DEC` consume: none when `ICNT != 8` or `IOVF = 1` (R57, R171). -/
def blockIn (c : TeaCore) : Option Block := if c.iovf = true then none else bytesToBlock c.ibuf

end Sys2Proof.Machine
end

