-- ==== Sys2Proof/Machine/Ops.lean ====
section
/-! DEFINITION. The named operations every command is written with: responses and errors (R15, R72, R203), the buffer
primitives (R51, R52), the two ways an operation starts, and reset (R230). -/

namespace Sys2Proof.Machine

/-- The result of a meaning. -/
abbrev Result := Host.Outcome State Fault Refusal

/-- The response codes of R201. -/
inductive Code where
  | ok
  | invalidKeyLength
  | invalidKeyFormat
  | invalidRoundCount
  | invalidBlockLength
  | illegalCommand
  | noKey
  | outputUnderrun
  deriving DecidableEq, Repr

/-- The number of each code (R201). `InvalidKeyFormat` has one and nothing raises it (R210). -/
def Code.number : Code → BitVec 4
  | .ok => 0#4
  | .invalidKeyLength => 1#4
  | .invalidKeyFormat => 2#4
  | .invalidRoundCount => 3#4
  | .invalidBlockLength => 4#4
  | .illegalCommand => 5#4
  | .noKey => 6#4
  | .outputUnderrun => 7#4

/-- The response word: `code` in `RSP[35:32]`, `data` in `RSP[31:0]` (R72). -/
def rspWord (code : Code) (data : Word) : RspWord := code.number ++ data

/-- The state with another TEA-CORE state in it. -/
def State.withCore (s : State) (c : TeaCore) : State := { s with core := c }

/-- The state after one more response word. -/
def State.answer (s : State) (r : RspWord) : State := { s with responses := s.responses ++ [r] }

/-- `respond(v)`: `code = 0` (OK) and `data = v` (R15). -/
def respond (v : Word) (s : State) : Result := .next (s.answer (rspWord .ok v))

/-- `raise <Error>`, the one kind of exception TEA-CORE has: no state change at all, the error's code, `data = 0`
(R15, R200, R203). Nothing is saved and nothing is to be returned from (R213): the next command is the return. -/
def raise (e : Code) (s : State) : Result := .next (s.answer (rspWord e 0#32))

/-- `push(b)` (R51): append, or drop the byte and set `IOVF` when `IBUF` is full. -/
def push (b : Byte) (c : TeaCore) : TeaCore :=
  if c.ibuf.length < Config.ibufCap then { c with ibuf := c.ibuf ++ [b] } else { c with iovf := true }

/-- `push(w[31:24]); push(w[23:16]); push(w[15:8]); push(w[7:0])`, each seeing the buffer as the one before left it
(R56, R103). -/
def pushWord (w : Word) (c : TeaCore) : TeaCore :=
  (bytesBe w).foldl (fun d b => push b d) c

/-- A fill of the output buffer: its whole content becomes the 8 bytes of `V0`, `V1` (R52). -/
def fill (c : TeaCore) : TeaCore := { c with obuf := blockToBytes c.v }

/-- Remove the `n` oldest bytes of the output buffer (R52). -/
def dropOut (n : Nat) (c : TeaCore) : TeaCore := { c with obuf := c.obuf.drop n }

/-- Take the block out of the input buffer into `V[0..1]`, emptying the buffer (R171, R176). -/
def loadBlock (b : Block) (c : TeaCore) : TeaCore := { c with v := b, ibuf := [] }

/-- The start of an encryption (R146, R176); `sto` is the new `STO`. -/
def startEncrypt (sto : Bool) (c : TeaCore) : TeaCore :=
  { c with sum := 0#32, rcnt := c.rounds, sto := sto, phase := .encrypt }

/-- The start of a decryption (R147, R177): the sum is `DELTA * ROUNDS`, computed from the count in force (C2, D7). -/
def startDecrypt (sto : Bool) (c : TeaCore) : TeaCore :=
  { c with sum := Config.delta * c.rounds, rcnt := c.rounds, sto := sto, phase := .decrypt }

/-- `SETR` for a `ROUNDS` register of `rcw` bits (R121, R206): an operand of `2^rcw` or more is an error, never
truncated (R74, U2). -/
def setRounds (rcw : Nat) (n : Word) (s : State) : Result :=
  if 2 ^ rcw ≤ n.toNat then raise .invalidRoundCount s
  else respond 0#32 (s.withCore { s.core with rounds := n })

/-- A step with `rst` asserted (R230, R231): the reset state, whatever is in progress; a held command is dropped with
no response. -/
def assertReset (s : State) : State := { s with core := TeaCore.reset, port := none }

/-- The form the two buffers keep: at most 16 and at most 8 bytes (R29, R31, I1 of R37). The buffers are byte
sequences (R14), so every list of bytes within the capacities is canonical (log 5). -/
def Memory.wf (c : TeaCore) : Bool :=
  decide (c.ibuf.length ≤ Config.ibufCap) && decide (c.obuf.length ≤ Config.obufCap)

end Sys2Proof.Machine
end

