-- ==== Sys2Proof/Machine/Codec.lean ====
section
/-! DEFINITION. The converter, the output buffer and the byte path: `LDBLK`, `STBLK`, `CLRO`, `POPB`, `POPW`, `ENC`, `DEC`
(R171 to R177). Each is the effect of an ACCEPTED command (log 8). -/

namespace Sys2Proof.Machine

/-- `LDBLK` (R171): needs no key. -/
def execLdblk (s : State) : Result :=
  match blockIn s.core with
  | none => raise .invalidBlockLength s
  | some b => respond 0#32 (s.withCore (loadBlock b s.core))

/-- `STBLK` (R172): replaces whatever `OBUF` held. -/
def execStblk (s : State) : Result := respond 0#32 (s.withCore (fill s.core))

/-- `CLRO` (R173). -/
def execClro (s : State) : Result := respond 0#32 (s.withCore { s.core with obuf := [] })

/-- `POPB` (R174): `data = zext_32` of the oldest byte. -/
def execPopb (s : State) : Result :=
  match memRead1 s.core.obuf 0 with
  | none => raise .outputUnderrun s
  | some b => respond (b.setWidth 32) (s.withCore (dropOut 1 s.core))

/-- `POPW` (R175): the four oldest bytes, the oldest most significant. -/
def execPopw (s : State) : Result :=
  match memRead4 s.core.obuf 0 with
  | none => raise .outputUnderrun s
  | some w => respond w (s.withCore (dropOut 4 s.core))

/-- `ENC` (R176): `NoKey` is checked before the length (R211). -/
def execEnc (s : State) : Result :=
  if s.core.keyv = true then
    match blockIn s.core with
    | none => raise .invalidBlockLength s
    | some b => respond 0#32 (s.withCore (startEncrypt true (loadBlock b s.core)))
  else raise .noKey s

/-- `DEC` (R177): `NoKey` is checked before the length (R211). -/
def execDec (s : State) : Result :=
  if s.core.keyv = true then
    match blockIn s.core with
    | none => raise .invalidBlockLength s
    | some b => respond 0#32 (s.withCore (startDecrypt true (loadBlock b s.core)))
  else raise .noKey s

end Sys2Proof.Machine
end

