-- ==== Sys2Proof/Machine/Construction.lean ====
section
/-! DEFINITION. Round count, status, constants and `NOP` (R121 to R126). Each is the effect of an ACCEPTED command (log 8). -/

namespace Sys2Proof.Machine

/-- `SETR imm32` (R121), for this hardware's `RCW`. -/
def execSetr (imm32 : Word) (s : State) : Result := setRounds Config.rcw imm32 s

/-- `RDR` (R122). -/
def execRdr (s : State) : Result := respond s.core.rounds s

/-- `RDSTAT` (R123): the view `STATUS` as it is in the accepting step. -/
def execRdstat (s : State) : Result := respond (status s.core) s

/-- `RDBSZ` (R124). -/
def execRdbsz (s : State) : Result := respond (BitVec.ofNat 32 Config.blockBytes) s

/-- `RDKSZ` (R125). -/
def execRdksz (s : State) : Result := respond (BitVec.ofNat 32 Config.keyBytes) s

/-- `NOP` (R126). -/
def execNop (s : State) : Result := respond 0#32 s

end Sys2Proof.Machine
end

