-- ==== Sys2Proof/Machine/InputBuffer.lean ====
section
/-! DEFINITION. The input buffer commands and the key load: `CLRI`, `PUSHB`, `PUSHW`, `KEYLD` (R101 to R104). Each is the
effect of an ACCEPTED command; acceptance is R73, in Machine/Port.lean (log 8). -/

namespace Sys2Proof.Machine

/-- `CLRI` (R101): the only command that clears `IOVF`. -/
def execClri (s : State) : Result :=
  respond 0#32 (s.withCore { s.core with ibuf := [], iovf := false })

/-- `PUSHB imm8` (R102): never an error, the length error belongs to the consuming command. -/
def execPushb (imm8 : Byte) (s : State) : Result :=
  respond 0#32 (s.withCore (push imm8 s.core))

/-- `PUSHW imm32` (R103). -/
def execPushw (imm32 : Word) (s : State) : Result :=
  respond 0#32 (s.withCore (pushWord imm32 s.core))

/-- `KEYLD` (R104, R204): all four key words at once; `ROUNDS`, `V` and `OBUF` are untouched. -/
def execKeyld (s : State) : Result :=
  match keyIn s.core with
  | none => raise .invalidKeyLength s
  | some k => respond 0#32 (s.withCore { s.core with key := k, keyv := true, ibuf := [] })

end Sys2Proof.Machine
end

