-- ==== Sys2Proof/Machine/WordPath.lean ====
section
/-! DEFINITION. The word-path commands: `WRV0`, `WRV1`, `RDV0`, `RDV1`, `ENCR`, `DECR` (R142 to R147). Each is the effect of
an ACCEPTED command (log 8). -/

namespace Sys2Proof.Machine

/-- `WRV0 imm32` (R142): `V1` is untouched. -/
def execWrv0 (imm32 : Word) (s : State) : Result :=
  respond 0#32 (s.withCore { s.core with v := { s.core.v with v0 := imm32 } })

/-- `WRV1 imm32` (R143): `V0` is untouched. -/
def execWrv1 (imm32 : Word) (s : State) : Result :=
  respond 0#32 (s.withCore { s.core with v := { s.core.v with v1 := imm32 } })

/-- `RDV0` (R144). -/
def execRdv0 (s : State) : Result := respond s.core.v.v0 s

/-- `RDV1` (R145). -/
def execRdv1 (s : State) : Result := respond s.core.v.v1 s

/-- `ENCR` (R146): answers at once; the rounds are the engine's. -/
def execEncr (s : State) : Result :=
  if s.core.keyv = true then respond 0#32 (s.withCore (startEncrypt false s.core)) else raise .noKey s

/-- `DECR` (R147). -/
def execDecr (s : State) : Result :=
  if s.core.keyv = true then respond 0#32 (s.withCore (startDecrypt false s.core)) else raise .noKey s

end Sys2Proof.Machine
end

