-- ==== Sys2Proof/Machine/Dispatch.lean ====
section
/-! DEFINITION. One arm per command: the effect of the command once it is accepted (R73). -/

namespace Sys2Proof.Machine

def exec (i : Instr) (s : State) : Host.Outcome State Fault Refusal :=
  match i with
  | .nop => Sys2Proof.Machine.execNop s
  | .clri => Sys2Proof.Machine.execClri s
  | .pushb imm8 => Sys2Proof.Machine.execPushb imm8 s
  | .pushw imm32 => Sys2Proof.Machine.execPushw imm32 s
  | .clro => Sys2Proof.Machine.execClro s
  | .popb => Sys2Proof.Machine.execPopb s
  | .popw => Sys2Proof.Machine.execPopw s
  | .keyld => Sys2Proof.Machine.execKeyld s
  | .setr imm32 => Sys2Proof.Machine.execSetr imm32 s
  | .rdr => Sys2Proof.Machine.execRdr s
  | .wrv0 imm32 => Sys2Proof.Machine.execWrv0 imm32 s
  | .wrv1 imm32 => Sys2Proof.Machine.execWrv1 imm32 s
  | .rdv0 => Sys2Proof.Machine.execRdv0 s
  | .rdv1 => Sys2Proof.Machine.execRdv1 s
  | .ldblk => Sys2Proof.Machine.execLdblk s
  | .stblk => Sys2Proof.Machine.execStblk s
  | .encr => Sys2Proof.Machine.execEncr s
  | .decr => Sys2Proof.Machine.execDecr s
  | .enc => Sys2Proof.Machine.execEnc s
  | .dec => Sys2Proof.Machine.execDec s
  | .rdstat => Sys2Proof.Machine.execRdstat s
  | .rdbsz => Sys2Proof.Machine.execRdbsz s
  | .rdksz => Sys2Proof.Machine.execRdksz s

end Sys2Proof.Machine
end

