-- ==== Sys2Proof/Machine/Cipher.lean ====
section
/-! DEFINITION. The round function (R16), one round on a block (R150, R151), and whole operations as functions of the key,
the round count and the block (R153, R154). -/

namespace Sys2Proof.Machine

/-- `F(v, s, ka, kb) = ((v << 4) + ka) ^ (v + s) ^ ((v >> 5) + kb)` (R16), every operation on 32 unsigned bits (R11). -/
def roundF (v s ka kb : Word) : Word :=
  ((v <<< Config.shlAmt) + ka) ^^^ (v + s) ^^^ ((v >>> Config.shrAmt) + kb)

/-- One encrypt round with running sum `s`: `V0` first, and the new `V0` for `V1` (R150, R246). -/
def encRound (k : Key) (s : Word) (b : Block) : Block :=
  let v0' := b.v0 + roundF b.v1 s k.k0 k.k1
  let v1' := b.v1 + roundF v0' s k.k2 k.k3
  { v0 := v0', v1 := v1' }

/-- One decrypt round with running sum `s`: `V1` first, and the new `V1` for `V0` (R151, R246). -/
def decRound (k : Key) (s : Word) (b : Block) : Block :=
  let v1' := b.v1 - roundF b.v0 s k.k2 k.k3
  let v0' := b.v0 - roundF v1' s k.k0 k.k1
  { v0 := v0', v1 := v1' }

/-- `E_i` of R153: the block after `i` encrypt rounds. -/
def encRounds (k : Key) : Nat → Block → Block
  | 0, b => b
  | i + 1, b => encRound k (Config.delta * BitVec.ofNat 32 (i + 1)) (encRounds k i b)

/-- `D_i` of R154 for round count `n`: the block after `i` decrypt rounds, `i` at most `n`. -/
def decRounds (k : Key) (n : Nat) : Nat → Block → Block
  | 0, b => b
  | i + 1, b => decRound k (Config.delta * BitVec.ofNat 32 (n - i)) (decRounds k n i b)

/-- `EncryptBlock(k, n, v0, v1)` (R153). -/
def encryptBlock (k : Key) (n : Nat) (b : Block) : Block := encRounds k n b

/-- `DecryptBlock(k, n, v0, v1)` (R154). -/
def decryptBlock (k : Key) (n : Nat) (b : Block) : Block := decRounds k n n b

end Sys2Proof.Machine
end

