-- ==== Sys2Proof/Machine/Engine.lean ====
section
/-! DEFINITION. The engine's own steps (R148 to R152). They answer no command, raise no error and cannot fail. -/

namespace Sys2Proof.Machine

/-- The encrypt round step (R150): the sum is stepped before it is used. -/
def encryptRoundStep (c : TeaCore) : TeaCore :=
  let s' := c.sum + Config.delta
  { c with v := encRound c.key s' c.v, sum := s', rcnt := c.rcnt - 1#32 }

/-- The decrypt round step (R151): the sum is used first and stepped last. -/
def decryptRoundStep (c : TeaCore) : TeaCore :=
  { c with v := decRound c.key c.sum c.v, sum := c.sum - Config.delta, rcnt := c.rcnt - 1#32 }

/-- The finish step (R152): fill `OBUF` if `STO = 1`, clear `STO`, go idle. -/
def finishStep (c : TeaCore) : TeaCore :=
  let d := if c.sto = true then fill c else c
  { d with sto := false, phase := .idle }

/-- The engine step that is enabled, by (`PHASE`, `RCNT`) (R148); none while idle. -/
def engineStep (c : TeaCore) : Option TeaCore :=
  match c.phase with
  | .idle => none
  | .encrypt => some (if c.rcnt = 0#32 then finishStep c else encryptRoundStep c)
  | .decrypt => some (if c.rcnt = 0#32 then finishStep c else decryptRoundStep c)

end Sys2Proof.Machine
end

