-- ==== Sys2Proof/Machine/Port.lean ====
section
/-! DEFINITION. The command port and the turn of each agent: acceptance and holding (R73), the accepting step (R70, R76,
R78), the engine's turn (R148), and one step of the whole machine under the next move. -/

namespace Sys2Proof.Machine

/-- Acceptance looks at `CMD[39:32]` only: `op = 0x60` in every phase, any other `op`, legal or not, only when
`PHASE = IDLE` (R73). -/
def accepts (p : Phase) (w : CmdWord) : Bool := opField w == 0x60#8 || p == .idle

/-- The accepting step: decode the word and run the command, or answer `IllegalCommand` (R76, R78, R208). -/
def acceptWord (w : CmdWord) (s : State) : Result :=
  match decode w with
  | .ok i => exec i s
  | .error _ => raise .illegalCommand s

/-- The engine's turn: the enabled engine step; nothing happens while idle (R148). -/
def engineTurn (s : State) : State :=
  match engineStep s.core with
  | some c => s.withCore c
  | none => s

/-- A presented word is accepted if it can be, and then leaves the port; otherwise it is held and the engine, which is
then busy, takes its step (R73, R247). -/
def portTurn (s : State) : Result :=
  match s.port with
  | some w => if accepts s.core.phase w = true then acceptWord w { s with port := none } else .next (engineTurn s)
  | none => .next (engineTurn s)

/-- One step of the machine under its next move (log 2, log 10). A host presents no second word while one is held
(R73, R247), so `present` waits for the port. When no move is left the engine, if busy, always takes its enabled
step, which is the fairness of R9. -/
def turn (s : State) : Result :=
  match s.moves with
  | .rst :: ms => .next (assertReset { s with moves := ms })
  | .outsideTable :: _ => .refused .hostOutsideTable
  | .engine :: ms =>
    if busy s.core = true then .next (engineTurn { s with moves := ms }) else portTurn { s with moves := ms }
  | .present w :: ms =>
    match s.port with
    | none => portTurn { s with port := some w, moves := ms }
    | some _ => portTurn s
  | [] => portTurn s

/-- The state in which the host presents `w` next, ahead of every other move. A word that a running operation would
hold finds the operation abandoned, so that the very next step accepts it (log 3). -/
def presentNext (w : CmdWord) (s : State) : State :=
  { s with
    core := if accepts s.core.phase w = true then s.core
      else { s.core with phase := .idle, rcnt := 0#32, sto := false }
    port := none
    moves := .present w :: s.moves }

end Sys2Proof.Machine
end

