-- ==== Sys2Proof/Machine/Step.lean ====
section
/-! DEFINITION. One step of the machine, and the placing of a command word where the next step takes it. -/

namespace Sys2Proof.Machine

/-- One atomic step: a host step, an engine step, or a step with `rst` asserted (R8, R61). -/
def step (s : State) : Host.Outcome State Fault Refusal := turn s

/-- `s` with the table word presented by the host in the very next step (log 3). -/
def State.withFetchWord (s : State) (nbits w : Nat) : State := presentNext (tableWord nbits w) s

end Sys2Proof.Machine
end

