-- ==== Sys2Proof/Machine/Assembler.lean ====
section
/-! DEFINITION. The pseudo-commands of the assembler (R80) and the moves of a host that issues a list of commands. -/

namespace Sys2Proof.Machine

/-- The assembler's pseudo-commands (R80). -/
inductive Pseudo where
  | KEYB (b : Vector Byte 16)
  | KEYW (w0 w1 w2 w3 : Word)
  | ENCB (b : Vector Byte 8)
  | DECB (b : Vector Byte 8)
  | ENCW (w0 w1 : Word)
  | DECW (w0 w1 : Word)
  | POP8
  deriving DecidableEq, Repr

/-- The fixed sequence each pseudo-command expands to (R80). -/
def Pseudo.expand : Pseudo → List Instr
  | .KEYB b => .clri :: b.toList.map .pushb ++ [.keyld]
  | .KEYW w0 w1 w2 w3 => [.clri, .pushw w0, .pushw w1, .pushw w2, .pushw w3, .keyld]
  | .ENCB b => .clri :: b.toList.map .pushb ++ [.enc]
  | .DECB b => .clri :: b.toList.map .pushb ++ [.dec]
  | .ENCW w0 w1 => [.wrv0 w0, .wrv1 w1, .encr]
  | .DECW w0 w1 => [.wrv0 w0, .wrv1 w1, .decr]
  | .POP8 => List.replicate 8 .popb

/-- The moves of a host that issues these commands one after another. -/
def program (is : List Instr) : List Move := is.map fun i => .present (encode i)

end Sys2Proof.Machine
end

