-- ==== Sys2Proof/Safety.lean ====
section
/-! DEFINITION. What claims are stated in: the invariants of R37, runs of the machine, and what a safe run is. -/

namespace Sys2Proof.Machine

/-- The invariants I1 to I9 of R37, by their numbers there. -/
structure TeaCore.Inv (c : TeaCore) : Prop where
  i1 : c.ibuf.length ≤ Config.ibufCap ∧ c.obuf.length ≤ Config.obufCap
  i2 : c.iovf = true → c.ibuf.length = Config.ibufCap
  i3 : c.phase ≠ .idle → c.keyv = true
  i4 : c.sto = true → c.phase ≠ .idle
  i5 : c.rcnt ≤ c.rounds
  i6 : c.phase = .idle → c.rcnt = 0#32
  i7 : c.phase = .encrypt → c.sum = Config.delta * (c.rounds - c.rcnt)
  i8 : c.phase = .decrypt → c.sum = Config.delta * c.rcnt
  i9 : c.rounds.toNat < 2 ^ Config.rcw

/-- `n` steps; stops at the first fault or refusal. -/
def run : Nat → State → Result
  | 0, s => .next s
  | n + 1, s =>
    match step s with
    | .next s' => run n s'
    | .fault r => .fault r
    | .refused r => .refused r

/-- `n` enabled engine steps in a row; none where the engine goes idle before that. -/
def engineSteps : Nat → TeaCore → Option TeaCore
  | 0, c => some c
  | n + 1, c =>
    match engineStep c with
    | some d => engineSteps n d
    | none => none

/-- The machine right after reset, with a host that will make these moves. -/
def State.withMoves (ms : List Move) : State := { State.reset with moves := ms }

/-- A state that a run from reset reaches, whatever the host and the schedule do (R37). -/
def Reachable (s : State) : Prop := ∃ ms n, run n (State.withMoves ms) = .next s

/-- A run of `n` steps is safe when it neither faults nor is refused. -/
def SafeFor (n : Nat) (s : State) : Prop := ∃ t, run n s = .next t

/-- The host keeps to the table of R247. -/
def hostKeepsToTable (ms : List Move) : Prop := Move.outsideTable ∉ ms

end Sys2Proof.Machine
end

