-- ==== Sys2Proof/Certificates/Slice0/Obligations.lean ====
section
/-! DEFINITION. The statements for the provers. A response word is written as its two fields, `code ++ data` (R72): `0#4 ++ v` is
`OK v`, `6#4 ++ 0#32` is `ERR NoKey`. A command word is written as `op ++ arg` (R70). `{ s with … }` says the frame: what
it does not name is as before, the port, the moves and the earlier responses included. -/

open Sys2Proof Sys2Proof.Machine

-- ---------------------------------------------------------------- reset

/-- R36: the reset value of every piece of state. -/
def Obligations.ResetStateIsTheTableOfResetValues : Prop :=
  State.reset.core =
    { key := { k0 := 0#32, k1 := 0#32, k2 := 0#32, k3 := 0#32 }, keyv := false, rounds := 32#32,
      v := { v0 := 0#32, v1 := 0#32 }, sum := 0#32, rcnt := 0#32, phase := .idle, sto := false, ibuf := [],
      iovf := false, obuf := [] }

/-- R230: `rst` gives the reset state whatever is in progress, drops a held command with no response, and in that step no
command is accepted and no engine step is taken; released, the machine is idle and accepts every word. -/
def Obligations.ResetInputGivesTheResetStateFromAnyState : Prop :=
  (∀ (s : State) (ms : List Move), s.moves = .rst :: ms →
    step s = .next
      { core := { key := { k0 := 0#32, k1 := 0#32, k2 := 0#32, k3 := 0#32 }, keyv := false, rounds := 32#32,
                  v := { v0 := 0#32, v1 := 0#32 }, sum := 0#32, rcnt := 0#32, phase := .idle, sto := false, ibuf := [],
                  iovf := false, obuf := [] },
        port := none, moves := ms, responses := s.responses }) ∧
  ∀ w : CmdWord, accepts State.reset.core.phase w = true

-- ---------------------------------------------------------------- encoding

/-- R78: decoding and encoding are inverse to each other on legal commands and legal words. -/
def Obligations.DecodeAndEncodeAreInverse : Prop :=
  (∀ i : Instr, decode (encode i) = .ok i) ∧
  (∀ (c : CmdWord) (i : Instr), decode c = .ok i → encode i = c)

/-- R75: a word is a command exactly when it matches that command's row, `c &&& mask = match`, and no word matches two
rows. -/
def Obligations.DecoderAgreesWithTheOpcodeMap : Prop :=
  (∀ c : CmdWord, (∃ i, decode c = .ok i) ↔ ∃ r ∈ opcodeMap, c &&& r.mask = r.pattern) ∧
  (∀ (c : CmdWord) (i : Instr) (r : OpcodeRow), decode c = .ok i → r ∈ opcodeMap →
    (c &&& r.mask = r.pattern ↔ r.mnemonic = i.mnemonic))

/-- R76: the illegal words are exactly those of the cases (a), (b), (c), and an accepted illegal word answers
`IllegalCommand` and changes nothing. -/
def Obligations.IllegalWordsAreTheThreeCasesAndAnswerCodeFive : Prop :=
  (∀ c : CmdWord, (∃ e, decode c = .error e) ↔
    ((∀ m : Mnemonic, c.extractLsb' 32 8 ≠ m.op) ∨
      (∃ m : Mnemonic, m.format = .N ∧ c.extractLsb' 32 8 = m.op ∧ c.extractLsb' 0 32 ≠ 0#32) ∨
      (c.extractLsb' 32 8 = 0x11#8 ∧ c.extractLsb' 8 24 ≠ 0#24))) ∧
  (∀ (c : CmdWord) (s : State), (∃ e, decode c = .error e) →
    acceptWord c s = .next { s with responses := s.responses ++ [5#4 ++ 0#32] })

/-- The command words of the test vectors V1, written out from R75. A sanity statement. -/
def Obligations.VectorWordsDecodeAsListed : Prop :=
  decode 0x0000000000 = .ok .nop ∧ decode 0x1000000000 = .ok .clri ∧ decode 0x1100000054 = .ok (.pushb 0x54) ∧
  decode 0x12FFFFFFFF = .ok (.pushw 0xFFFFFFFF) ∧ decode 0x2000000000 = .ok .keyld ∧
  decode 0x21FFFFFFFF = .ok (.setr 0xFFFFFFFF) ∧ decode 0x3054686520 = .ok (.wrv0 0x54686520) ∧
  decode 0x5200000000 = .ok .enc ∧ decode 0x6000000000 = .ok .rdstat ∧
  decode 0x1100000100 = .error .byteArgTooWide ∧ decode 0x2000000001 = .error .argNotZero ∧
  decode 0xFFFFFFFFFF = .error .unassignedOp

/-- R79: the source lines that can be assembled are the well-formed ones, every command has a line, and
`PUSHB 256` has no command. -/
def Obligations.ExactlyTheWellFormedLinesAssemble : Prop :=
  (∀ l : SourceLine, l.assemble.isSome = l.wellFormed) ∧
  (∀ i : Instr, SourceLine.assemble
    { mnemonic := i.mnemonic, operand := if i.mnemonic.format = .N then none else some i.arg.toNat } = some i) ∧
  (∀ n : Nat, (SourceLine.assemble { mnemonic := .PUSHB, operand := some n }).isSome = decide (n < 256))

-- ---------------------------------------------------------------- the port

/-- A step runs the decoded command: a word on the port, or presented in this step, while the engine is idle is accepted in this
step, leaves the port, and the step is `exec` of what it decodes to. The model's choice, and no rule's (log 10): that a further
`present` waits while a word is held (third clause), and that an idle machine uses up an `engine` move and accepts the word on
the port in that step (fourth clause). That an empty list of moves leaves the step to the port is log 2. -/
def Obligations.StepRunsTheDecodedCommand : Prop :=
  ∀ (s : State) (w : CmdWord) (i : Instr), decode w = .ok i → s.core.phase = .idle →
    (∀ ms, s.port = none → s.moves = .present w :: ms → step s = exec i { s with moves := ms }) ∧
    (s.port = some w → s.moves = [] → step s = exec i { s with port := none }) ∧
    (∀ w' ms, s.port = some w → s.moves = .present w' :: ms → step s = exec i { s with port := none }) ∧
    (∀ ms, s.port = some w → s.moves = .engine :: ms → step s = exec i { s with port := none, moves := ms })

/-- The host's placing of a table word: from every state the very next step runs the decoded command (log 3). In a state
with an operation in progress, that operation is given up first, for every command but `RDSTAT`. -/
def Obligations.FetchedWordRunsInTheNextStep : Prop :=
  ∀ (s : State) (nbits w : Nat) (i : Instr), decodeTableWord nbits w = some i →
    (s.core.phase = .idle ∨ i = .rdstat → step (s.withFetchWord nbits w) = exec i { s with port := none }) ∧
    (s.core.phase ≠ .idle → i ≠ .rdstat → step (s.withFetchWord nbits w) =
      exec i { s with core := { s.core with phase := .idle, rcnt := 0#32, sto := false }, port := none })

/-- From R73: while an operation runs, a command whose `op` is not 0x60 is held, legal or not: no response, no effect; the word
stays on the port. The model's choice, and no rule's (log 10): that the engine takes its step in the very step that presents
the word, and that a further `present` waits while a word is held. That the engine takes its step when no move is left is
log 2. -/
def Obligations.HeldCommandHasNoEffectAndNoResponse : Prop :=
  ∀ (s : State) (w : CmdWord), s.core.phase ≠ .idle → w.extractLsb' 32 8 ≠ 0x60#8 →
    ∃ c, engineStep s.core = some c ∧
      (∀ ms, s.port = none → s.moves = .present w :: ms →
        step s = .next { s with core := c, port := some w, moves := ms }) ∧
      (s.port = some w → s.moves = [] → step s = .next { s with core := c }) ∧
      (∀ ms, s.port = some w → s.moves = .engine :: ms → step s = .next { s with core := c, moves := ms }) ∧
      (∀ w' ms, s.port = some w → s.moves = .present w' :: ms → step s = .next { s with core := c })

/-- R157 and R61: while an operation runs, and `rst` is not asserted, a step either takes the one enabled engine step and
answers nothing, or answers one word and writes nothing of R20. -/
def Obligations.BusyMachineOnlyAdvancesOrAnswersStatus : Prop :=
  ∀ s t : State, s.core.phase ≠ .idle → (∀ ms, s.moves ≠ .rst :: ms) → step s = .next t →
    (engineStep s.core = some t.core ∧ t.responses = s.responses) ∨
    (t.core = s.core ∧
      (t.responses = s.responses ++ [0#4 ++ status s.core] ∨ t.responses = s.responses ++ [5#4 ++ 0#32]))

/-- U7: host behaviour outside the table of R247 is refused by name, and nothing else makes a step stop. -/
def Obligations.StepStopsOnlyOnAHostOutsideTheTable : Prop :=
  ∀ s : State,
    ((∃ ms, s.moves = .outsideTable :: ms) → step s = .refused .hostOutsideTable) ∧
    ((∀ ms, s.moves ≠ .outsideTable :: ms) → ∃ t, step s = .next t)

-- ---------------------------------------------------------------- commands: buffers and key

/-- R101, R173: `CLRI` empties the input buffer and clears `IOVF`, and is the only command that clears it; `CLRO` empties the
output buffer. -/
def Obligations.ClearCommandsEmptyTheirBuffer : Prop :=
  decode (0x10#8 ++ 0#32) = .ok .clri ∧ decode (0x13#8 ++ 0#32) = .ok .clro ∧
  (∀ s : State,
    exec .clri s = .next
      { s with core := { s.core with ibuf := [], iovf := false }, responses := s.responses ++ [0#4 ++ 0#32] } ∧
    exec .clro s = .next { s with core := { s.core with obuf := [] }, responses := s.responses ++ [0#4 ++ 0#32] }) ∧
  (∀ (i : Instr) (s t : State), exec i s = .next t → s.core.iovf = true → t.core.iovf = false → i = .clri)

/-- R102 with R51: the byte is appended while fewer than 16 bytes are there; otherwise it is dropped and `IOVF` is set; `OK`
either way. With a bit of `CMD[31:8]` set the word is illegal. -/
def Obligations.PushByteAppendsOrSetsOverflow : Prop :=
  (∀ (b : Byte) (s : State),
    decode (0x11#8 ++ 0#24 ++ b) = .ok (.pushb b) ∧
    (s.core.ibuf.length < 16 → exec (.pushb b) s = .next
      { s with core := { s.core with ibuf := s.core.ibuf ++ [b] }, responses := s.responses ++ [0#4 ++ 0#32] }) ∧
    (16 ≤ s.core.ibuf.length → exec (.pushb b) s = .next
      { s with core := { s.core with iovf := true }, responses := s.responses ++ [0#4 ++ 0#32] })) ∧
  (∀ c : CmdWord, c.extractLsb' 32 8 = 0x11#8 → c.extractLsb' 8 24 ≠ 0#24 → decode c = .error .byteArgTooWide)

/-- R103: four bytes, most significant first, as far as the buffer has room; `IOVF` is set if any of them found it full. -/
def Obligations.PushWordAppendsFourBytesMostSignificantFirst : Prop :=
  ∀ (w : Word) (s : State), s.core.ibuf.length ≤ 16 →
    decode (0x12#8 ++ w) = .ok (.pushw w) ∧
    exec (.pushw w) s = .next
      { s with
        core := { s.core with
          ibuf := (s.core.ibuf ++
            [w.extractLsb' 24 8, w.extractLsb' 16 8, w.extractLsb' 8 8, w.extractLsb' 0 8]).take 16
          iovf := s.core.iovf || decide (12 < s.core.ibuf.length) }
        responses := s.responses ++ [0#4 ++ 0#32] }


/-- R104 with R100: with exactly 16 bytes and no overflow the four words are the four big-endian groups, all written together,
`KEYV` is set and the buffer is consumed; otherwise `InvalidKeyLength` and nothing changes. -/
def Obligations.KeyLoadExpandsSixteenBytesOrRefusesTheLength : Prop :=
  decode (0x20#8 ++ 0#32) = .ok .keyld ∧
  (∀ (s : State) (b0 b1 b2 b3 b4 b5 b6 b7 b8 b9 b10 b11 b12 b13 b14 b15 : Byte),
    s.core.ibuf = [b0, b1, b2, b3, b4, b5, b6, b7, b8, b9, b10, b11, b12, b13, b14, b15] → s.core.iovf = false →
    exec .keyld s = .next
      { s with
        core := { s.core with
          key := { k0 := b0 ++ b1 ++ b2 ++ b3, k1 := b4 ++ b5 ++ b6 ++ b7,
                   k2 := b8 ++ b9 ++ b10 ++ b11, k3 := b12 ++ b13 ++ b14 ++ b15 }
          keyv := true
          ibuf := [] }
        responses := s.responses ++ [0#4 ++ 0#32] }) ∧
  (∀ s : State, s.core.ibuf.length ≠ 16 ∨ s.core.iovf = true →
    exec .keyld s = .next { s with responses := s.responses ++ [1#4 ++ 0#32] })

-- ---------------------------------------------------------------- commands: construction, status, constants

/-- R121: `SETR` writes the round count and, with `RCW = 32`, cannot fail; for a narrower register (`rcw` bits) an operand of
`2^rcw` or more answers `InvalidRoundCount` and changes nothing. -/
def Obligations.SetRoundsWritesTheCountOrRefusesWhatDoesNotFit : Prop :=
  (∀ (n : Word) (s : State),
    decode (0x21#8 ++ n) = .ok (.setr n) ∧
    exec (.setr n) s = .next
      { s with core := { s.core with rounds := n }, responses := s.responses ++ [0#4 ++ 0#32] }) ∧
  (∀ (rcw : Nat) (n : Word) (s : State),
    (2 ^ rcw ≤ n.toNat → setRounds rcw n s = .next { s with responses := s.responses ++ [3#4 ++ 0#32] }) ∧
    (n.toNat < 2 ^ rcw → setRounds rcw n s = .next
      { s with core := { s.core with rounds := n }, responses := s.responses ++ [0#4 ++ 0#32] }))

/-- R122, R144, R145: the register reads return the register and have no side effect. -/
def Obligations.RegisterReadsReturnTheRegister : Prop :=
  decode (0x22#8 ++ 0#32) = .ok .rdr ∧ decode (0x32#8 ++ 0#32) = .ok .rdv0 ∧ decode (0x33#8 ++ 0#32) = .ok .rdv1 ∧
  ∀ s : State,
    exec .rdr s = .next { s with responses := s.responses ++ [0#4 ++ s.core.rounds] } ∧
    exec .rdv0 s = .next { s with responses := s.responses ++ [0#4 ++ s.core.v.v0] } ∧
    exec .rdv1 s = .next { s with responses := s.responses ++ [0#4 ++ s.core.v.v1] }

/-- R123 with R32: `RDSTAT` is accepted in every phase and writes nothing; the fields of `STATUS` and its reserved bits, in every
state that keeps I1 of R37; with `arg != 0` the word is accepted in every phase too, and answers `IllegalCommand`; no other `op` is
accepted while busy. -/
def Obligations.StatusReadReturnsTheFieldsOfTheViewInEveryPhase : Prop :=
  (∀ s : State, s.core.ibuf.length ≤ 16 → s.core.obuf.length ≤ 8 →
    ∃ w : Word,
      exec .rdstat s = .next { s with responses := s.responses ++ [0#4 ++ w] } ∧
      w.getLsbD 0 = decide (s.core.phase ≠ .idle) ∧ w.getLsbD 1 = s.core.keyv ∧ w.getLsbD 2 = s.core.iovf ∧
      w.extractLsb' 3 5 = 0#5 ∧ (w.extractLsb' 8 5).toNat = s.core.ibuf.length ∧ w.extractLsb' 13 3 = 0#3 ∧
      (w.extractLsb' 16 4).toNat = s.core.obuf.length ∧ w.extractLsb' 20 12 = 0#12) ∧
  (∀ (s : State) (ms : List Move), s.port = none → s.moves = .present (0x60#8 ++ 0#32) :: ms →
    step s = exec .rdstat { s with moves := ms }) ∧
  (∀ (s : State) (arg : Word) (ms : List Move), arg ≠ 0#32 → s.port = none → s.moves = .present (0x60#8 ++ arg) :: ms →
    step s = .next { s with moves := ms, responses := s.responses ++ [5#4 ++ 0#32] }) ∧
  (∀ (p : Phase) (w : CmdWord), p ≠ .idle → (accepts p w = true ↔ w.extractLsb' 32 8 = 0x60#8))

/-- R124, R125, R126: the constants, and `NOP`. -/
def Obligations.ConstantsReadEightAndSixteenAndNopDoesNothing : Prop :=
  decode (0x61#8 ++ 0#32) = .ok .rdbsz ∧ decode (0x62#8 ++ 0#32) = .ok .rdksz ∧ decode (0x00#8 ++ 0#32) = .ok .nop ∧
  ∀ s : State,
    exec .rdbsz s = .next { s with responses := s.responses ++ [0#4 ++ 8#32] } ∧
    exec .rdksz s = .next { s with responses := s.responses ++ [0#4 ++ 16#32] } ∧
    exec .nop s = .next { s with responses := s.responses ++ [0#4 ++ 0#32] }

-- ---------------------------------------------------------------- commands: word path

/-- R142, R143: each writes its word of the block and leaves the other. -/
def Obligations.WordWritesSetOneBlockWord : Prop :=
  ∀ (w : Word) (s : State),
    decode (0x30#8 ++ w) = .ok (.wrv0 w) ∧ decode (0x31#8 ++ w) = .ok (.wrv1 w) ∧
    exec (.wrv0 w) s = .next
      { s with core := { s.core with v := { v0 := w, v1 := s.core.v.v1 } }, responses := s.responses ++ [0#4 ++ 0#32] } ∧
    exec (.wrv1 w) s = .next
      { s with core := { s.core with v := { v0 := s.core.v.v0, v1 := w } }, responses := s.responses ++ [0#4 ++ 0#32] }

/-- R146: `ENCR` starts an encryption of `V0`, `V1`, or answers `NoKey`. -/
def Obligations.WordEncryptStartsTheEngineOrAnswersNoKey : Prop :=
  decode (0x50#8 ++ 0#32) = .ok .encr ∧
  ∀ s : State,
    (s.core.keyv = true → exec .encr s = .next
      { s with
        core := { s.core with sum := 0#32, rcnt := s.core.rounds, sto := false, phase := .encrypt }
        responses := s.responses ++ [0#4 ++ 0#32] }) ∧
    (s.core.keyv = false → exec .encr s = .next { s with responses := s.responses ++ [6#4 ++ 0#32] })

/-- R147: `DECR` starts a decryption of `V0`, `V1` with the sum `DELTA * ROUNDS`, or answers `NoKey`. -/
def Obligations.WordDecryptStartsTheEngineOrAnswersNoKey : Prop :=
  decode (0x51#8 ++ 0#32) = .ok .decr ∧
  ∀ s : State,
    (s.core.keyv = true → exec .decr s = .next
      { s with
        core := { s.core with
          sum := 0x9E3779B9#32 * s.core.rounds, rcnt := s.core.rounds, sto := false, phase := .decrypt }
        responses := s.responses ++ [0#4 ++ 0#32] }) ∧
    (s.core.keyv = false → exec .decr s = .next { s with responses := s.responses ++ [6#4 ++ 0#32] })

/-- R147: the computed sum is the constant 0xC6EF3720 exactly when the round count is 32. -/
def Obligations.DecryptSumIsTheOldConstantOnlyForThirtyTwoRounds : Prop :=
  ∀ (s t : State), s.core.keyv = true → exec .decr s = .next t →
    (t.core.sum = 0xC6EF3720#32 ↔ s.core.rounds = 32#32)

-- ---------------------------------------------------------------- commands: byte path

/-- R171 with R170: with exactly 8 bytes and no overflow the block is the two big-endian groups and the buffer is consumed;
otherwise `InvalidBlockLength` and nothing changes. -/
def Obligations.LoadBlockConvertsEightBytesOrRefusesTheLength : Prop :=
  decode (0x40#8 ++ 0#32) = .ok .ldblk ∧
  (∀ (s : State) (b0 b1 b2 b3 b4 b5 b6 b7 : Byte),
    s.core.ibuf = [b0, b1, b2, b3, b4, b5, b6, b7] → s.core.iovf = false →
    exec .ldblk s = .next
      { s with
        core := { s.core with v := { v0 := b0 ++ b1 ++ b2 ++ b3, v1 := b4 ++ b5 ++ b6 ++ b7 }, ibuf := [] }
        responses := s.responses ++ [0#4 ++ 0#32] }) ∧
  (∀ s : State, s.core.ibuf.length ≠ 8 ∨ s.core.iovf = true →
    exec .ldblk s = .next { s with responses := s.responses ++ [4#4 ++ 0#32] })

/-- R172: `STBLK` replaces the output buffer by the 8 bytes of the block, most significant byte first. -/
def Obligations.StoreBlockReplacesTheOutputBuffer : Prop :=
  decode (0x41#8 ++ 0#32) = .ok .stblk ∧
  ∀ s : State, exec .stblk s = .next
    { s with
      core := { s.core with obuf :=
        [s.core.v.v0.extractLsb' 24 8, s.core.v.v0.extractLsb' 16 8, s.core.v.v0.extractLsb' 8 8,
         s.core.v.v0.extractLsb' 0 8, s.core.v.v1.extractLsb' 24 8, s.core.v.v1.extractLsb' 16 8,
         s.core.v.v1.extractLsb' 8 8, s.core.v.v1.extractLsb' 0 8] }
      responses := s.responses ++ [0#4 ++ 0#32] }

/-- R174: `POPB` returns and removes the oldest byte, or answers `OutputUnderrun`. -/
def Obligations.PopByteRemovesTheOldestByteOrUnderruns : Prop :=
  decode (0x14#8 ++ 0#32) = .ok .popb ∧
  ∀ s : State,
    (∀ b rest, s.core.obuf = b :: rest → exec .popb s = .next
      { s with core := { s.core with obuf := rest }, responses := s.responses ++ [0#4 ++ (0#24 ++ b)] }) ∧
    (s.core.obuf.length < 1 → exec .popb s = .next { s with responses := s.responses ++ [7#4 ++ 0#32] })

/-- R175: `POPW` returns and removes the four oldest bytes as a big-endian word, or answers `OutputUnderrun`. -/
def Obligations.PopWordRemovesFourBytesOrUnderruns : Prop :=
  decode (0x15#8 ++ 0#32) = .ok .popw ∧
  ∀ s : State,
    (∀ b0 b1 b2 b3 rest, s.core.obuf = b0 :: b1 :: b2 :: b3 :: rest → exec .popw s = .next
      { s with
        core := { s.core with obuf := rest }
        responses := s.responses ++ [0#4 ++ (b0 ++ b1 ++ b2 ++ b3)] }) ∧
    (s.core.obuf.length < 4 → exec .popw s = .next { s with responses := s.responses ++ [7#4 ++ 0#32] })

/-- R176 with R211: `ENC` checks the key, then the length, then loads the block and starts an encryption that will store. -/
def Obligations.ByteEncryptLoadsTheBlockAndStartsTheEngine : Prop :=
  decode (0x52#8 ++ 0#32) = .ok .enc ∧
  (∀ (s : State) (b0 b1 b2 b3 b4 b5 b6 b7 : Byte), s.core.keyv = true →
    s.core.ibuf = [b0, b1, b2, b3, b4, b5, b6, b7] → s.core.iovf = false →
    exec .enc s = .next
      { s with
        core := { s.core with
          v := { v0 := b0 ++ b1 ++ b2 ++ b3, v1 := b4 ++ b5 ++ b6 ++ b7 }, ibuf := [],
          sum := 0#32, rcnt := s.core.rounds, sto := true, phase := .encrypt }
        responses := s.responses ++ [0#4 ++ 0#32] }) ∧
  (∀ s : State, s.core.keyv = false → exec .enc s = .next { s with responses := s.responses ++ [6#4 ++ 0#32] }) ∧
  (∀ s : State, s.core.keyv = true → s.core.ibuf.length ≠ 8 ∨ s.core.iovf = true →
    exec .enc s = .next { s with responses := s.responses ++ [4#4 ++ 0#32] })

/-- R177 with R211: `DEC` as `ENC`, with the sum `DELTA * ROUNDS`. -/
def Obligations.ByteDecryptLoadsTheBlockAndStartsTheEngine : Prop :=
  decode (0x53#8 ++ 0#32) = .ok .dec ∧
  (∀ (s : State) (b0 b1 b2 b3 b4 b5 b6 b7 : Byte), s.core.keyv = true →
    s.core.ibuf = [b0, b1, b2, b3, b4, b5, b6, b7] → s.core.iovf = false →
    exec .dec s = .next
      { s with
        core := { s.core with
          v := { v0 := b0 ++ b1 ++ b2 ++ b3, v1 := b4 ++ b5 ++ b6 ++ b7 }, ibuf := [],
          sum := 0x9E3779B9#32 * s.core.rounds, rcnt := s.core.rounds, sto := true, phase := .decrypt }
        responses := s.responses ++ [0#4 ++ 0#32] }) ∧
  (∀ s : State, s.core.keyv = false → exec .dec s = .next { s with responses := s.responses ++ [6#4 ++ 0#32] }) ∧
  (∀ s : State, s.core.keyv = true → s.core.ibuf.length ≠ 8 ∨ s.core.iovf = true →
    exec .dec s = .next { s with responses := s.responses ++ [4#4 ++ 0#32] })

/-- R100, R170: `KX` is defined exactly on 16 bytes and `BytesToBlock` exactly on 8, each is a bijection onto the words, and
`BlockToBytes` is the inverse of `BytesToBlock`. -/
def Obligations.ByteAndWordConversionsAreBijections : Prop :=
  (∀ b : List Byte, (kx b).isSome = decide (b.length = 16) ∧ (bytesToBlock b).isSome = decide (b.length = 8)) ∧
  (∀ k : Key, ∃ b : List Byte, kx b = some k) ∧
  (∀ (b b' : List Byte) (k : Key), kx b = some k → kx b' = some k → b = b') ∧
  (∀ v : Block, bytesToBlock (blockToBytes v) = some v) ∧
  (∀ (b : List Byte) (v : Block), bytesToBlock b = some v → blockToBytes v = b)

/-- R56: a word pushed is indistinguishable from its four bytes pushed one by one, and one `POPW` from four `POPB`, whose bytes are
those of its word, most significant first; in every state. -/
def Obligations.WordTransfersAreFourByteTransfers : Prop :=
  (∀ (w : Word) (s t : State), exec (.pushw w) s = .next t →
    ∃ s1 s2 s3 s4 : State,
      exec (.pushb (w.extractLsb' 24 8)) s = .next s1 ∧ exec (.pushb (w.extractLsb' 16 8)) s1 = .next s2 ∧
      exec (.pushb (w.extractLsb' 8 8)) s2 = .next s3 ∧ exec (.pushb (w.extractLsb' 0 8)) s3 = .next s4 ∧
      s4.core = t.core ∧ s4.port = t.port ∧ s4.moves = t.moves) ∧
  (∀ (s t : State) (w : Word), exec .popw s = .next t → t.responses = s.responses ++ [0#4 ++ w] →
    ∃ s1 s2 s3 s4 : State,
      exec .popb s = .next s1 ∧ exec .popb s1 = .next s2 ∧ exec .popb s2 = .next s3 ∧ exec .popb s3 = .next s4 ∧
      s4 = { t with responses := s.responses ++
        [0#4 ++ (0#24 ++ w.extractLsb' 24 8), 0#4 ++ (0#24 ++ w.extractLsb' 16 8),
         0#4 ++ (0#24 ++ w.extractLsb' 8 8), 0#4 ++ (0#24 ++ w.extractLsb' 0 8)] })

-- ---------------------------------------------------------------- errors and whole-machine rules over the commands

/-- R72: every accepted word, legal or not, gives exactly one response; its code is one of 0, 1, 4, 5, 6, 7 (2 is never
produced, R210, 3 not with `RCW = 32`, R206, 8 to 15 never); `data` is 0 whenever the code is not 0. The port and the moves
are the host's. -/
def Obligations.EveryAcceptedWordGivesExactlyOneResponse : Prop :=
  ∀ (w : CmdWord) (s : State), ∃ (t : State) (code : BitVec 4) (data : Word),
    acceptWord w s = .next t ∧ t.responses = s.responses ++ [code ++ data] ∧ t.port = s.port ∧ t.moves = s.moves ∧
    code ∈ [0#4, 1#4, 4#4, 5#4, 6#4, 7#4] ∧ (code ≠ 0#4 → data = 0#32)

/-- R203: a command that raises an error changes no state whatsoever. -/
def Obligations.AnErrorChangesNothing : Prop :=
  ∀ (w : CmdWord) (s t : State) (r : RspWord), acceptWord w s = .next t → t.responses = s.responses ++ [r] →
    r.extractLsb' 32 4 ≠ 0#4 → t = { s with responses := s.responses ++ [r] } ∧ r.extractLsb' 0 32 = 0#32

/-- R202: the commands that can never raise a semantic error answer `OK` in every state. -/
def Obligations.CommandsWithoutErrorsAlwaysAnswerOk : Prop :=
  ∀ (i : Instr) (s : State),
    i.mnemonic ∈ [.NOP, .CLRI, .PUSHB, .PUSHW, .CLRO, .RDR, .WRV0, .WRV1, .RDV0, .RDV1, .STBLK, .RDSTAT, .RDBSZ, .RDKSZ,
      .SETR] →
    ∃ (t : State) (d : Word), exec i s = .next t ∧ t.responses = s.responses ++ [0#4 ++ d]


/-- R24, R21: among the commands only a `KEYLD` writes the key registers or `KEYV`, and none clears `KEYV`. -/
def Obligations.OnlyKeyLoadWritesTheKey : Prop :=
  ∀ (i : Instr) (s t : State), exec i s = .next t →
    (i ≠ .keyld → t.core.key = s.core.key ∧ t.core.keyv = s.core.keyv) ∧
    (s.core.keyv = true → t.core.keyv = true)

/-- R60 with R21 and R29: the key and the input buffer have no read path. What a command answers, and all it leaves but the key
registers, is the same whatever the key is; what it answers is the same whatever bytes the input buffer holds, its length
apart. -/
def Obligations.NoCommandRevealsTheKeyOrTheInputBytes : Prop :=
  (∀ (i : Instr) (s t : State) (k : Key), exec i s = .next t →
    ∃ t' : State, exec i { s with core := { s.core with key := k } } = .next t' ∧ t'.responses = t.responses ∧
      { t'.core with key := t.core.key } = t.core ∧ t'.port = t.port ∧ t'.moves = t.moves) ∧
  (∀ (i : Instr) (s t : State) (b : List Byte), b.length = s.core.ibuf.length → exec i s = .next t →
    ∃ t' : State, exec i { s with core := { s.core with ibuf := b } } = .next t' ∧ t'.responses = t.responses)

/-- R58: the idempotent writes: doing one twice leaves the state of doing it once (but for the two responses). -/
def Obligations.IdempotentWritesMayBeRepeated : Prop :=
  ∀ (i : Instr) (s t u : State), i.mnemonic ∈ [.WRV0, .WRV1, .SETR, .CLRI, .CLRO, .STBLK] →
    exec i s = .next t → exec i t = .next u → u.core = t.core ∧ u.responses = t.responses ++ [0#4 ++ 0#32]

-- ---------------------------------------------------------------- the round unit

/-- R16 with R11: the round function, computed on natural numbers with every operation reduced modulo 2^32. -/
def Obligations.RoundFunctionIsTheModularFormula : Prop :=
  ∀ v s ka kb : Word, (roundF v s ka kb).toNat =
    ((v.toNat * 16 % 2 ^ 32 + ka.toNat) % 2 ^ 32) ^^^ ((v.toNat + s.toNat) % 2 ^ 32) ^^^
      ((v.toNat / 32 + kb.toNat) % 2 ^ 32)

/-- R148, R150: the encrypt round step, written out. -/
def Obligations.EncryptRoundStepIsTheWrittenOutRound : Prop :=
  ∀ (c : TeaCore) (s' v0' v1' : Word), c.phase = .encrypt → c.rcnt ≠ 0#32 →
    s' = c.sum + 0x9E3779B9#32 →
    v0' = c.v.v0 + (((c.v.v1 <<< 4) + c.key.k0) ^^^ (c.v.v1 + s') ^^^ ((c.v.v1 >>> 5) + c.key.k1)) →
    v1' = c.v.v1 + (((v0' <<< 4) + c.key.k2) ^^^ (v0' + s') ^^^ ((v0' >>> 5) + c.key.k3)) →
    engineStep c = some { c with v := { v0 := v0', v1 := v1' }, sum := s', rcnt := c.rcnt - 1#32 }

/-- R148, R151: the decrypt round step, written out. -/
def Obligations.DecryptRoundStepIsTheWrittenOutRound : Prop :=
  ∀ (c : TeaCore) (v0' v1' : Word), c.phase = .decrypt → c.rcnt ≠ 0#32 →
    v1' = c.v.v1 - (((c.v.v0 <<< 4) + c.key.k2) ^^^ (c.v.v0 + c.sum) ^^^ ((c.v.v0 >>> 5) + c.key.k3)) →
    v0' = c.v.v0 - (((v1' <<< 4) + c.key.k0) ^^^ (v1' + c.sum) ^^^ ((v1' >>> 5) + c.key.k1)) →
    engineStep c = some
      { c with v := { v0 := v0', v1 := v1' }, sum := c.sum - 0x9E3779B9#32, rcnt := c.rcnt - 1#32 }

/-- R152: the finish step fills the output buffer only if `STO = 1`, clears `STO` and goes idle; R148: while idle no engine step
is enabled. -/
def Obligations.FinishStepStoresOnlyForTheBytePath : Prop :=
  ∀ c : TeaCore,
    (c.phase = .idle → engineStep c = none) ∧
    (c.phase ≠ .idle → c.rcnt = 0#32 → engineStep c = some
      { c with
        obuf := if c.sto = true then
            [c.v.v0.extractLsb' 24 8, c.v.v0.extractLsb' 16 8, c.v.v0.extractLsb' 8 8, c.v.v0.extractLsb' 0 8,
             c.v.v1.extractLsb' 24 8, c.v.v1.extractLsb' 16 8, c.v.v1.extractLsb' 8 8, c.v.v1.extractLsb' 0 8]
          else c.obuf
        sto := false
        phase := .idle })

/-- R127: no step of a running operation, short of `rst`, changes the key, `KEYV` or `ROUNDS`; nor the input buffer. -/
def Obligations.RunningOperationKeepsKeyRoundsAndInput : Prop :=
  ∀ s t : State, s.core.phase ≠ .idle → (∀ ms, s.moves ≠ .rst :: ms) → step s = .next t →
    t.core.key = s.core.key ∧ t.core.keyv = s.core.keyv ∧ t.core.rounds = s.core.rounds ∧
    t.core.ibuf = s.core.ibuf ∧ t.core.iovf = s.core.iovf

/-- R155: decryption undoes encryption and encryption undoes decryption, for every key, round count and block. -/
def Obligations.EncryptAndDecryptAreInverse : Prop :=
  ∀ (k : Key) (n : Nat) (b : Block),
    decryptBlock k n (encryptBlock k n b) = b ∧ encryptBlock k n (decryptBlock k n b) = b

/-- R156: with zero rounds both directions are the identity, and the operation is the finish step alone. -/
def Obligations.ZeroRoundsIsTheIdentity : Prop :=
  (∀ (k : Key) (b : Block), encryptBlock k 0 b = b ∧ decryptBlock k 0 b = b) ∧
  (∀ s t : State, s.core.keyv = true → s.core.rounds = 0#32 →
    (exec .encr s = .next t ∨ exec .decr s = .next t) →
    ∃ c, engineStep t.core = some c ∧ c.phase = .idle ∧ c.v = s.core.v)

/-- R153: `EncryptBlock` is `E_n` of the recursion written out there, and an operation started by `ENCR` or `ENC` reaches, after
exactly `ROUNDS` round steps and one finish step, a state with that block and idle; everything else but the hidden `SUM`,
`RCNT` and `STO`, and the output buffer of a byte-path operation, is as just after the start step. That every step of the run is
one engine step, because the list of moves is empty, is the model's choice (log 2). -/
def Obligations.EncryptOperationComputesEncryptBlock : Prop :=
  (∀ (k : Key) (i : Nat) (b : Block),
    encryptBlock k 0 b = b ∧
    ∃ s a' b' : Word, s = 0x9E3779B9#32 * BitVec.ofNat 32 (i + 1) ∧
      a' = (encryptBlock k i b).v0 + roundF (encryptBlock k i b).v1 s k.k0 k.k1 ∧
      b' = (encryptBlock k i b).v1 + roundF a' s k.k2 k.k3 ∧
      encryptBlock k (i + 1) b = { v0 := a', v1 := b' }) ∧
  (∀ s t : State, s.core.phase = .idle → s.port = none → s.moves = [] →
    (exec .encr s = .next t ∨ exec .enc s = .next t) → t.core.phase = .encrypt →
    run (t.core.rounds.toNat + 1) t = .next
      { t with
        core := { t.core with
          v := encryptBlock t.core.key t.core.rounds.toNat t.core.v
          sum := 0x9E3779B9#32 * t.core.rounds
          rcnt := 0#32
          phase := .idle
          sto := false
          obuf := if t.core.sto = true then blockToBytes (encryptBlock t.core.key t.core.rounds.toNat t.core.v)
            else t.core.obuf } })

/-- R154: `DecryptBlock` is `D_n` of the recursion written out there, and an operation started by `DECR` or `DEC` reaches, after
exactly `ROUNDS` round steps and one finish step, a state with that block, idle and with `SUM = 0`. That every step of the run
is one engine step, because the list of moves is empty, is the model's choice (log 2). -/
def Obligations.DecryptOperationComputesDecryptBlock : Prop :=
  (∀ (k : Key) (n i : Nat) (b : Block), i < n →
    decryptBlock k n b = decRounds k n n b ∧ decRounds k n 0 b = b ∧
    ∃ s a' b' : Word, s = 0x9E3779B9#32 * BitVec.ofNat 32 (n - i) ∧
      b' = (decRounds k n i b).v1 - roundF (decRounds k n i b).v0 s k.k2 k.k3 ∧
      a' = (decRounds k n i b).v0 - roundF b' s k.k0 k.k1 ∧
      decRounds k n (i + 1) b = { v0 := a', v1 := b' }) ∧
  (∀ s t : State, s.core.phase = .idle → s.port = none → s.moves = [] →
    (exec .decr s = .next t ∨ exec .dec s = .next t) → t.core.phase = .decrypt →
    run (t.core.rounds.toNat + 1) t = .next
      { t with
        core := { t.core with
          v := decryptBlock t.core.key t.core.rounds.toNat t.core.v
          sum := 0#32
          rcnt := 0#32
          phase := .idle
          sto := false
          obuf := if t.core.sto = true then blockToBytes (decryptBlock t.core.key t.core.rounds.toNat t.core.v)
            else t.core.obuf } })

/-- R245, R9, R240: whatever command is held, a running operation ends after exactly `RCNT` round steps and one finish step, not
before; the held command is still on the port, unanswered, and the next step accepts it. That every step of the run is one engine
step, because the list of moves is empty, is the model's choice (log 2). -/
def Obligations.OperationEndsAfterItsRoundsAndTheFinishStep : Prop :=
  ∀ (s : State) (w : CmdWord), s.core.phase ≠ .idle → w.extractLsb' 32 8 ≠ 0x60#8 → s.port = some w → s.moves = [] →
    (∀ n, n ≤ s.core.rcnt.toNat → ∃ t, run n s = .next t ∧ t.core.phase ≠ .idle) ∧
    (∃ t, run (s.core.rcnt.toNat + 1) s = .next t ∧ t.core.phase = .idle ∧ t.port = some w ∧
      t.responses = s.responses ∧ step t = acceptWord w { t with port := none })

/-- R157, U3: however status reads are interleaved with the engine's steps, the operation ends, and in the state that the engine
steps alone give. The list of moves as the form of the interleaving, and the engine steps once the list is used up, are the
model's choice (log 2). -/
def Obligations.EveryInterleavingOfStatusReadsEndsInTheSameState : Prop :=
  ∀ (s : State) (c : TeaCore), s.core.phase ≠ .idle → s.port = none →
    (∀ m ∈ s.moves, m = .engine ∨ ∃ w : CmdWord, m = .present w ∧ w.extractLsb' 32 8 = 0x60#8) →
    engineSteps (s.core.rcnt.toNat + 1) s.core = some c →
    ∃ n t, n ≤ s.moves.length + s.core.rcnt.toNat + 1 ∧ run n s = .next t ∧ t.core = c ∧ c.phase = .idle

-- ---------------------------------------------------------------- whole programs of the host

/-- R19, R240: the source's `encryptBlock(v0, v1)`: `WRV0`, `WRV1`, `ENCR`, `RDV0`, `RDV1` issued one after another, with no wait,
answer the two words of the encrypted block. The count `ROUNDS + 6` is five host steps and the `ROUNDS + 1` engine steps of R245;
that presenting the held `RDV0` takes no step of its own (log 10), and that the run wastes no step (log 2), is the model's
choice. -/
def Obligations.WordPathProgramAnswersTheEncryptedBlock : Prop :=
  ∀ (s : State) (a b : Word), s.core.phase = .idle → s.core.keyv = true → s.port = none →
    s.moves = program [.wrv0 a, .wrv1 b, .encr, .rdv0, .rdv1] →
    ∃ t, run (s.core.rounds.toNat + 6) s = .next t ∧
      t.responses = s.responses ++
        [0#4 ++ 0#32, 0#4 ++ 0#32, 0#4 ++ 0#32,
         0#4 ++ (encryptBlock s.core.key s.core.rounds.toNat { v0 := a, v1 := b }).v0,
         0#4 ++ (encryptBlock s.core.key s.core.rounds.toNat { v0 := a, v1 := b }).v1] ∧
      t.moves = [] ∧ t.port = none ∧ t.core.phase = .idle

/-- R245, R233: one block on the byte path, `CLRI`, 8 `PUSHB`, `ENC` or `DEC`, 8 `POPB`, takes `ROUNDS + 19` steps and answers the
eight bytes of the transformed block in order. That the count of R245 comes out in the model's steps rests on its choices: presenting
a held word takes no step of its own (log 10), and the run wastes no step (log 2). -/
def Obligations.BytePathProgramTakesRoundsPlusNineteenSteps : Prop :=
  ∀ (s : State) (b : Vector Byte 8) (blk : Block) (start : Instr) (f : Key → Nat → Block → Block),
    (start = .enc ∧ f = encryptBlock) ∨ (start = .dec ∧ f = decryptBlock) →
    s.core.phase = .idle → s.core.keyv = true → s.port = none →
    bytesToBlock b.toList = some blk →
    s.moves = program (.clri :: b.toList.map .pushb ++ [start] ++ List.replicate 8 .popb) →
    ∃ t, run (s.core.rounds.toNat + 19) s = .next t ∧
      t.responses = s.responses ++ List.replicate 10 (0#4 ++ 0#32) ++
        (blockToBytes (f s.core.key s.core.rounds.toNat blk)).map (fun x => 0#4 ++ (0#24 ++ x)) ∧
      t.moves = [] ∧ t.port = none ∧ t.core.phase = .idle ∧ t.core.obuf = []

/-- R178: the fused command and the unfused sequence reach the same state of TEA-CORE, and the output buffer holds the
transformed block; without a key and with a wrong length they differ in the error only. The numbers of steps rest on the model's choices: presenting
a held word takes no step of its own (log 10), and the run wastes no step (log 2). -/
def Obligations.FusedAndUnfusedFormsAgree : Prop :=
  (∀ (s : State) (blk : Block), s.core.phase = .idle → s.core.keyv = true → s.core.iovf = false →
    s.port = none → bytesToBlock s.core.ibuf = some blk →
    (∃ t u, run (s.core.rounds.toNat + 2) { s with moves := program [.enc] } = .next t ∧
      run (s.core.rounds.toNat + 4) { s with moves := program [.ldblk, .encr, .stblk] } = .next u ∧
      t.core = u.core ∧ t.core.obuf = blockToBytes (encryptBlock s.core.key s.core.rounds.toNat blk)) ∧
    (∃ t u, run (s.core.rounds.toNat + 2) { s with moves := program [.dec] } = .next t ∧
      run (s.core.rounds.toNat + 4) { s with moves := program [.ldblk, .decr, .stblk] } = .next u ∧
      t.core = u.core ∧ t.core.obuf = blockToBytes (decryptBlock s.core.key s.core.rounds.toNat blk))) ∧
  (∀ s : State, s.core.keyv = false → s.core.ibuf.length ≠ 8 →
    exec .enc s = .next { s with responses := s.responses ++ [6#4 ++ 0#32] } ∧
    exec .dec s = .next { s with responses := s.responses ++ [6#4 ++ 0#32] } ∧
    exec .ldblk s = .next { s with responses := s.responses ++ [4#4 ++ 0#32] })

/-- R179: with the same key and round count, `DEC` of the eight bytes that `ENC` left gives the original eight bytes back, and the
other way round. That the run takes one engine step in every step once its command is presented is the model's choice (log 2). -/
def Obligations.BytePathRoundTripRestoresTheBlock : Prop :=
  ∀ (s : State) (b : List Byte) (there back : Instr),
    (there = .enc ∧ back = .dec) ∨ (there = .dec ∧ back = .enc) →
    s.core.phase = .idle → s.core.keyv = true → s.core.iovf = false → s.port = none → s.core.ibuf = b → b.length = 8 →
    ∃ t, run (s.core.rounds.toNat + 2) { s with moves := program [there] } = .next t ∧ t.core.obuf.length = 8 ∧
      ∃ u, run (s.core.rounds.toNat + 2)
          { t with core := { t.core with ibuf := t.core.obuf }, moves := program [back] } = .next u ∧
        u.core.obuf = b

/-- R57, R104, R205 and D4: after `CLRI`, a `KEYLD` succeeds exactly when the number of bytes pushed is 16, and then the key is their
expansion; otherwise it answers `InvalidKeyLength` and the key is as before. -/
def Obligations.KeyLoadSucceedsExactlyForSixteenPushedBytes : Prop :=
  ∀ (s : State) (b : List Byte), s.core.phase = .idle → s.port = none →
    s.moves = program (.clri :: b.map .pushb ++ [.keyld]) →
    ∃ t, run (b.length + 2) s = .next t ∧
      (b.length = 16 → kx b = some t.core.key ∧ t.core.keyv = true ∧ t.core.ibuf = [] ∧
        t.responses = s.responses ++ List.replicate 18 (0#4 ++ 0#32)) ∧
      (b.length ≠ 16 → t.core.key = s.core.key ∧ t.core.keyv = s.core.keyv ∧
        t.responses = s.responses ++ List.replicate (b.length + 1) (0#4 ++ 0#32) ++ [1#4 ++ 0#32])

/-- R105: after `CLRI`, pushing words and loading succeeds exactly for four words, and then the key is those four words. -/
def Obligations.WordKeyIsExactlyFourPushedWords : Prop :=
  ∀ (s : State) (ws : List Word), s.core.phase = .idle → s.port = none →
    s.moves = program (.clri :: ws.map .pushw ++ [.keyld]) →
    ∃ t, run (ws.length + 2) s = .next t ∧
      (∀ w0 w1 w2 w3, ws = [w0, w1, w2, w3] →
        t.core.key = { k0 := w0, k1 := w1, k2 := w2, k3 := w3 } ∧ t.core.keyv = true ∧
        t.responses = s.responses ++ List.replicate 6 (0#4 ++ 0#32)) ∧
      (ws.length ≠ 4 → t.core.key = s.core.key ∧ t.core.keyv = s.core.keyv ∧
        t.responses = s.responses ++ List.replicate (ws.length + 1) (0#4 ++ 0#32) ++ [1#4 ++ 0#32])

-- ---------------------------------------------------------------- invariants

/-- The invariants I1 to I9 of R37 are kept by every step, from every state that has them, whatever the host does. -/
def Obligations.EveryStepKeepsTheInvariants : Prop :=
  ∀ s t : State, s.core.Inv → step s = .next t → t.core.Inv

/-- The invariants hold at reset. -/
def Obligations.ResetHasTheInvariants : Prop := State.reset.core.Inv

/-- R37: the invariants hold in every state reachable from reset, whatever the host and the schedule do. -/
def Obligations.EveryReachableStateHasTheInvariants : Prop := ∀ s : State, Reachable s → s.core.Inv

/-- R29, R31: every step keeps the two buffers within their capacities. -/
def Obligations.EveryStepKeepsTheBuffersWithinTheirCapacities : Prop :=
  ∀ s t : State, Memory.wf s.core = true → step s = .next t → Memory.wf t.core = true
end

