-- ==== Sys2Proof/Laws/Cipher.lean ====
section
/-! SUPPORT. One decrypt round undoes the encrypt round with the same sum and the other way round (R155), and the running sums as
multiples of DELTA (R25). -/

namespace Sys2Proof.Machine

/-- The decrypt round with sum `s` undoes the encrypt round with the same `s` (R155). -/
@[simp] theorem decRound_encRound (k : Key) (s : Word) (b : Block) : decRound k s (encRound k s b) = b := by
  simp [decRound, encRound]

/-- The encrypt round with sum `s` undoes the decrypt round with the same `s` (R155). -/
@[simp] theorem encRound_decRound (k : Key) (s : Word) (b : Block) : encRound k s (decRound k s b) = b := by
  simp [decRound, encRound]

/-- After `j` decrypt rounds of `n`, the first `n - j` encrypt rounds are left: the rounds are undone last first (R155). -/
theorem decRounds_encRounds (k : Key) (n j : Nat) (h : j ≤ n) (b : Block) :
    decRounds k n j (encRounds k n b) = encRounds k (n - j) b := by
  induction j with
  | zero => rfl
  | succ j ih =>
    have e : n - j = (n - (j + 1)) + 1 := by omega
    rw [decRounds, ih (by omega), e, encRounds, decRound_encRound]

/-- `m` encrypt rounds undo the last `m` of the `n` decrypt rounds (R155). -/
theorem encRounds_decRounds (k : Key) (n m : Nat) (h : m ≤ n) (b : Block) :
    encRounds k m (decRounds k n n b) = decRounds k n (n - m) b := by
  induction m with
  | zero => rfl
  | succ m ih =>
    have e : n - m = (n - (m + 1)) + 1 := by omega
    have e' : n - (n - (m + 1)) = m + 1 := by omega
    rw [encRounds, ih (by omega), e, decRounds, e', encRound_decRound]

/-- The sum after one more encrypt round (R25). -/
theorem delta_mul_succ (i : Nat) :
    Config.delta * BitVec.ofNat 32 i + Config.delta = Config.delta * BitVec.ofNat 32 (i + 1) := by
  rw [BitVec.ofNat_add, BitVec.mul_add]; simp

/-- The sum after one more decrypt round (R25). -/
theorem delta_mul_pred (i : Nat) :
    Config.delta * BitVec.ofNat 32 (i + 1) - Config.delta = Config.delta * BitVec.ofNat 32 i := by
  rw [← delta_mul_succ]; simp

end Sys2Proof.Machine
end

