-- ==== Sys2Proof/Laws/Decode.lean ====
section
/-! SUPPORT. The fields of a command word, the two format checks, and the small facts of the encoder. -/

namespace Sys2Proof

@[simp] theorem opField_append (op : BitVec 8) (arg : Word) : opField (op ++ arg) = op := by
  unfold opField; exact BitVec.extractLsb'_append_eq_left

@[simp] theorem argField_append (op : BitVec 8) (arg : Word) : argField (op ++ arg) = arg := by
  unfold argField; exact BitVec.extractLsb'_append_eq_right

/-- A command word is its two fields (R70). -/
theorem opField_append_argField (c : CmdWord) : opField c ++ argField c = c := by
  unfold opField argField
  apply BitVec.eq_of_getLsbD_eq
  intro i hi
  simp only [BitVec.getLsbD_append, BitVec.getLsbD_extractLsb']
  by_cases h : i < 32
  · simp [h]
  · have : i - 32 < 8 := by omega
    have e : 32 + (i - 32) = i := by omega
    simp [h, this, e]

theorem decodeN_eq_ok {arg : Word} {i j : Instr} : decodeN arg i = .ok j ↔ arg = 0#32 ∧ i = j := by
  unfold decodeN
  split
  · next h => simp [h]
  · next h => exact ⟨fun e => (nomatch e), fun e => absurd e.1 h⟩

theorem decodeB_eq_ok {arg : Word} {mk : Byte → Instr} {j : Instr} :
    decodeB arg mk = .ok j ↔ arg.extractLsb' 8 24 = 0#24 ∧ mk (arg.extractLsb' 0 8) = j := by
  unfold decodeB
  split
  · next h => simp [h]
  · next h => exact ⟨fun e => (nomatch e), fun e => absurd e.1 h⟩

/-- A word with zeros above its low byte is that byte, zero-extended (R71, R74). -/
theorem setWidth_lowByte {arg : Word} (h : arg.extractLsb' 8 24 = 0#24) :
    (arg.extractLsb' 0 8).setWidth 32 = arg := by
  apply BitVec.eq_of_getLsbD_eq
  intro i hi
  by_cases h8 : i < 8
  · simp [h8, hi]
  · have hb := congrArg (fun x : BitVec 24 => x.getLsbD (i - 8)) h
    have e : 8 + (i - 8) = i := by omega
    have l : i - 8 < 24 := by omega
    simp only [BitVec.getLsbD_extractLsb', l, decide_true, Bool.true_and, e] at hb
    simp [BitVec.getLsbD_setWidth, BitVec.getLsbD_extractLsb', h8, hb]

theorem setWidth_byte_high (b : Byte) : (b.setWidth 32).extractLsb' 8 24 = 0#24 := by
  apply BitVec.eq_of_getLsbD_eq
  intro i hi
  simp only [BitVec.getLsbD_extractLsb', BitVec.getLsbD_setWidth]
  simp

theorem setWidth_byte_low (b : Byte) : (b.setWidth 32).extractLsb' 0 8 = b := by
  apply BitVec.eq_of_getLsbD_eq
  intro i hi
  have : i < 32 := by omega
  simp [hi, this]

@[simp] theorem opField_encode (i : Instr) : opField (encode i) = i.mnemonic.op := by
  unfold encode; exact opField_append _ _

@[simp] theorem argField_encode (i : Instr) : argField (encode i) = i.arg := by
  unfold encode; exact argField_append _ _

/-- What the decoder reads is what its opcode says: the opcode and the operand of the instruction are the fields of the
word. -/
theorem decode_fields {c : CmdWord} {i : Instr} (h : decode c = .ok i) :
    opField c = i.mnemonic.op ∧ argField c = i.arg := by
  unfold decode at h
  split at h <;>
    first
      | (obtain ⟨ha, rfl⟩ := decodeN_eq_ok.1 h; exact ⟨by assumption, ha⟩)
      | (obtain ⟨ha, rfl⟩ := decodeB_eq_ok.1 h; exact ⟨by assumption, (setWidth_lowByte ha).symm⟩)
      | (cases h; exact ⟨by assumption, rfl⟩)
      | cases h

-- The row of R75 for each opcode, with any operand.
theorem decode_op_nop (arg : Word) : decode (0x00#8 ++ arg) = decodeN arg .nop := by simp [decode]
theorem decode_op_clri (arg : Word) : decode (0x10#8 ++ arg) = decodeN arg .clri := by simp [decode]
theorem decode_op_pushb (arg : Word) : decode (0x11#8 ++ arg) = decodeB arg .pushb := by simp [decode]
theorem decode_op_pushw (arg : Word) : decode (0x12#8 ++ arg) = .ok (.pushw arg) := by simp [decode]
theorem decode_op_clro (arg : Word) : decode (0x13#8 ++ arg) = decodeN arg .clro := by simp [decode]
theorem decode_op_popb (arg : Word) : decode (0x14#8 ++ arg) = decodeN arg .popb := by simp [decode]
theorem decode_op_popw (arg : Word) : decode (0x15#8 ++ arg) = decodeN arg .popw := by simp [decode]
theorem decode_op_keyld (arg : Word) : decode (0x20#8 ++ arg) = decodeN arg .keyld := by simp [decode]
theorem decode_op_setr (arg : Word) : decode (0x21#8 ++ arg) = .ok (.setr arg) := by simp [decode]
theorem decode_op_rdr (arg : Word) : decode (0x22#8 ++ arg) = decodeN arg .rdr := by simp [decode]
theorem decode_op_wrv0 (arg : Word) : decode (0x30#8 ++ arg) = .ok (.wrv0 arg) := by simp [decode]
theorem decode_op_wrv1 (arg : Word) : decode (0x31#8 ++ arg) = .ok (.wrv1 arg) := by simp [decode]
theorem decode_op_rdv0 (arg : Word) : decode (0x32#8 ++ arg) = decodeN arg .rdv0 := by simp [decode]
theorem decode_op_rdv1 (arg : Word) : decode (0x33#8 ++ arg) = decodeN arg .rdv1 := by simp [decode]
theorem decode_op_ldblk (arg : Word) : decode (0x40#8 ++ arg) = decodeN arg .ldblk := by simp [decode]
theorem decode_op_stblk (arg : Word) : decode (0x41#8 ++ arg) = decodeN arg .stblk := by simp [decode]
theorem decode_op_encr (arg : Word) : decode (0x50#8 ++ arg) = decodeN arg .encr := by simp [decode]
theorem decode_op_decr (arg : Word) : decode (0x51#8 ++ arg) = decodeN arg .decr := by simp [decode]
theorem decode_op_enc (arg : Word) : decode (0x52#8 ++ arg) = decodeN arg .enc := by simp [decode]
theorem decode_op_dec (arg : Word) : decode (0x53#8 ++ arg) = decodeN arg .dec := by simp [decode]
theorem decode_op_rdstat (arg : Word) : decode (0x60#8 ++ arg) = decodeN arg .rdstat := by simp [decode]
theorem decode_op_rdbsz (arg : Word) : decode (0x61#8 ++ arg) = decodeN arg .rdbsz := by simp [decode]
theorem decode_op_rdksz (arg : Word) : decode (0x62#8 ++ arg) = decodeN arg .rdksz := by simp [decode]

end Sys2Proof
end

