-- ==== Sys2Proof/Laws/Flags.lean ====
section
/-! SUPPORT. The fields of STATUS (R32), read back from the assembled word. -/

namespace Sys2Proof.Machine

variable (c : TeaCore)

theorem status_busy : (status c).getLsbD 0 = busy c := by
  simp only [status, BitVec.getLsbD_append, BitVec.getLsbD_ofBool]; simp

theorem status_keyv : (status c).getLsbD 1 = c.keyv := by
  simp only [status, BitVec.getLsbD_append, BitVec.getLsbD_ofBool]; simp

theorem status_iovf : (status c).getLsbD 2 = c.iovf := by
  simp only [status, BitVec.getLsbD_append, BitVec.getLsbD_ofBool]; simp

theorem status_reserved_low : (status c).extractLsb' 3 5 = 0#5 := by
  unfold status
  repeat rw [BitVec.extractLsb'_append_eq_of_le (by decide)]
  exact BitVec.extractLsb'_append_eq_right

theorem status_icnt (h : c.ibuf.length ≤ 16) : ((status c).extractLsb' 8 5).toNat = c.ibuf.length := by
  unfold status
  iterate 4 rw [BitVec.extractLsb'_append_eq_of_le (by decide)]
  simp only [show 8 - 1 - 1 - 1 - 5 = 0 by decide]
  rw [BitVec.extractLsb'_append_eq_right, BitVec.toNat_ofNat, icnt]; omega

theorem status_reserved_mid : (status c).extractLsb' 13 3 = 0#3 := by
  unfold status
  iterate 5 rw [BitVec.extractLsb'_append_eq_of_le (by decide)]
  exact BitVec.extractLsb'_append_eq_right

theorem status_ocnt (h : c.obuf.length ≤ 8) : ((status c).extractLsb' 16 4).toNat = c.obuf.length := by
  unfold status
  iterate 6 rw [BitVec.extractLsb'_append_eq_of_le (by decide)]
  simp only [show 16 - 1 - 1 - 1 - 5 - 5 - 3 = 0 by decide]
  rw [BitVec.extractLsb'_append_eq_right, BitVec.toNat_ofNat, ocnt]; omega

theorem status_reserved_high : (status c).extractLsb' 20 12 = 0#12 := by
  unfold status
  iterate 6 rw [BitVec.extractLsb'_append_eq_of_le (by decide)]
  exact BitVec.extractLsb'_append_eq_left

end Sys2Proof.Machine
end

