-- ==== Sys2Proof/Laws/Operands.lean ====
section
/-! SUPPORT. The byte and word conversions are inverse to each other (R14, R100, R170), and the length checks say what R57
says. -/

namespace Sys2Proof.Machine

@[simp] theorem bytesBe_length (v : Word) : (bytesBe v).length = 4 := rfl

@[simp] theorem blockToBytes_length (v : Block) : (blockToBytes v).length = 8 := rfl

theorem be32_bytes (v : Word) :
    be32 (v.extractLsb' 24 8) (v.extractLsb' 16 8) (v.extractLsb' 8 8) (v.extractLsb' 0 8) = v := by
  unfold be32
  apply BitVec.eq_of_getLsbD_eq
  intro i hi
  simp only [BitVec.getLsbD_append, BitVec.getLsbD_extractLsb']
  by_cases h0 : i < 8
  · simp [h0]
  by_cases h1 : i < 16
  · have : i - 8 < 8 := by omega
    have e : 8 + (i - 8) = i := by omega
    simp [h0, this, e]
  by_cases h2 : i < 24
  · have a : ¬i - 8 < 8 := by omega
    have b : i - 8 - 8 < 8 := by omega
    have e : 16 + (i - 8 - 8) = i := by omega
    simp [h0, a, b, e]
  · have a : ¬i - 8 < 8 := by omega
    have b : ¬i - 8 - 8 < 8 := by omega
    have d : i - 8 - 8 - 8 < 8 := by omega
    have e : 24 + (i - 8 - 8 - 8) = i := by omega
    simp [h0, a, b, d, e]

/-- `bytes_be` undoes `be32` (R14). -/
theorem bytesBe_be32 (b0 b1 b2 b3 : Byte) : bytesBe (be32 b0 b1 b2 b3) = [b0, b1, b2, b3] := by
  have h0 : (be32 b0 b1 b2 b3).extractLsb' 0 8 = b3 := by
    unfold be32; exact BitVec.extractLsb'_append_eq_right
  have h1 : (be32 b0 b1 b2 b3).extractLsb' 8 8 = b2 := by
    unfold be32
    rw [BitVec.extractLsb'_append_eq_of_le (by omega)]; exact BitVec.extractLsb'_append_eq_right
  have h2 : (be32 b0 b1 b2 b3).extractLsb' 16 8 = b1 := by
    unfold be32
    rw [BitVec.extractLsb'_append_eq_of_le (by omega), BitVec.extractLsb'_append_eq_of_le (by omega)]
    exact BitVec.extractLsb'_append_eq_right
  have h3 : (be32 b0 b1 b2 b3).extractLsb' 24 8 = b0 := by
    unfold be32
    rw [BitVec.extractLsb'_append_eq_of_le (by omega), BitVec.extractLsb'_append_eq_of_le (by omega)]
    exact BitVec.extractLsb'_append_eq_left
  simp [bytesBe, h0, h1, h2, h3]

theorem exists_bytes_of_length_eq_eight {b : List Byte} (h : b.length = 8) :
    ∃ b0 b1 b2 b3 b4 b5 b6 b7, b = [b0, b1, b2, b3, b4, b5, b6, b7] := by
  match b, h with
  | [b0, b1, b2, b3, b4, b5, b6, b7], _ => exact ⟨b0, b1, b2, b3, b4, b5, b6, b7, rfl⟩

theorem exists_bytes_of_length_eq_sixteen {b : List Byte} (h : b.length = 16) :
    ∃ b0 b1 b2 b3 b4 b5 b6 b7 b8 b9 b10 b11 b12 b13 b14 b15,
      b = [b0, b1, b2, b3, b4, b5, b6, b7, b8, b9, b10, b11, b12, b13, b14, b15] := by
  match b, h with
  | [b0, b1, b2, b3, b4, b5, b6, b7, b8, b9, b10, b11, b12, b13, b14, b15], _ =>
    exact ⟨b0, b1, b2, b3, b4, b5, b6, b7, b8, b9, b10, b11, b12, b13, b14, b15, rfl⟩

theorem kx_eq_none {b : List Byte} : kx b = none ↔ b.length ≠ 16 := by
  constructor
  · intro h e
    obtain ⟨b0, b1, b2, b3, b4, b5, b6, b7, b8, b9, b10, b11, b12, b13, b14, b15, rfl⟩ :=
      exists_bytes_of_length_eq_sixteen e
    cases h
  · intro h
    unfold kx
    split
    · exact absurd rfl h
    · rfl

theorem bytesToBlock_eq_none {b : List Byte} : bytesToBlock b = none ↔ b.length ≠ 8 := by
  constructor
  · intro h e
    obtain ⟨b0, b1, b2, b3, b4, b5, b6, b7, rfl⟩ := exists_bytes_of_length_eq_eight e
    cases h
  · intro h
    unfold bytesToBlock
    split
    · exact absurd rfl h
    · rfl

/-- `BytesToBlock` undoes `BlockToBytes` (R170). -/
theorem bytesToBlock_blockToBytes (v : Block) : bytesToBlock (blockToBytes v) = some v := by
  simp [blockToBytes, bytesBe, bytesToBlock, be32_bytes]

/-- `BlockToBytes` undoes `BytesToBlock` (R170). -/
theorem blockToBytes_of_bytesToBlock {b : List Byte} {v : Block} (h : bytesToBlock b = some v) :
    blockToBytes v = b := by
  have h8 : b.length = 8 := by
    by_contra e; rw [bytesToBlock_eq_none.2 e] at h; cases h
  obtain ⟨b0, b1, b2, b3, b4, b5, b6, b7, rfl⟩ := exists_bytes_of_length_eq_eight h8
  cases h
  simp [blockToBytes, bytesBe_be32]

/-- `KEYLD`'s check is "`ICNT != 16` or `IOVF = 1`" (R104). -/
theorem keyIn_eq_none {c : TeaCore} : keyIn c = none ↔ c.ibuf.length ≠ 16 ∨ c.iovf = true := by
  unfold keyIn
  split
  · next h => simp [h]
  · next h => simp [kx_eq_none, h]

/-- The block check is "`ICNT != 8` or `IOVF = 1`" (R171). -/
theorem blockIn_eq_none {c : TeaCore} : blockIn c = none ↔ c.ibuf.length ≠ 8 ∨ c.iovf = true := by
  unfold blockIn
  split
  · next h => simp [h]
  · next h => simp [bytesToBlock_eq_none, h]

theorem blockIn_eq_some {c : TeaCore} {v : Block} :
    blockIn c = some v ↔ c.iovf = false ∧ bytesToBlock c.ibuf = some v := by
  unfold blockIn
  split
  · next h => simp [h]
  · next h => simp [h]

theorem keyIn_eq_some {c : TeaCore} {k : Key} : keyIn c = some k ↔ c.iovf = false ∧ kx c.ibuf = some k := by
  unfold keyIn
  split
  · next h => simp [h]
  · next h => simp [h]

theorem memRead1_zero_eq_none {b : List Byte} : memRead1 b 0 = none ↔ b.length < 1 := by
  cases b <;> simp [memRead1]

theorem memRead4_zero_eq_none {b : List Byte} : memRead4 b 0 = none ↔ b.length < 4 := by
  unfold memRead4
  split
  · next h => simp at h; simp [h]
  · next h =>
    simp only [true_iff]
    match b, h with
    | [], _ => decide
    | [_], _ => simp
    | [_, _], _ => simp
    | [_, _, _], _ => simp
    | b0 :: b1 :: b2 :: b3 :: t, h => exact absurd (h b0 b1 b2 b3 t) (by simp)

/-- A fill is the two word writes of R57 at indices 0 and 4, whatever 8 bytes stood there. -/
theorem blockToBytes_eq_memWrite4 (v : Block) {b : List Byte} (h : b.length = 8) :
    memWrite4 (memWrite4 b 0 v.v0) 4 v.v1 = blockToBytes v := by
  obtain ⟨b0, b1, b2, b3, b4, b5, b6, b7, rfl⟩ := exists_bytes_of_length_eq_eight h
  rfl

end Sys2Proof.Machine
end

