-- ==== Sys2Proof/Laws/State.lean ====
section
/-! SUPPORT. One lemma per field for each update of State and for each TeaCore operation that is a record update; all by
`rfl`, so later proofs never unfold a record update. -/

namespace Sys2Proof.Machine

variable (s : State) (c d : TeaCore) (r : RspWord) (b : Block) (n : Nat) (q : Bool)

@[simp] theorem State.withCore_core : (s.withCore c).core = c := rfl
@[simp] theorem State.withCore_port : (s.withCore c).port = s.port := rfl
@[simp] theorem State.withCore_moves : (s.withCore c).moves = s.moves := rfl
@[simp] theorem State.withCore_responses : (s.withCore c).responses = s.responses := rfl
@[simp] theorem State.withCore_withCore : (s.withCore c).withCore d = s.withCore d := rfl
@[simp] theorem State.withCore_self : s.withCore s.core = s := rfl

@[simp] theorem State.answer_core : (s.answer r).core = s.core := rfl
@[simp] theorem State.answer_port : (s.answer r).port = s.port := rfl
@[simp] theorem State.answer_moves : (s.answer r).moves = s.moves := rfl
@[simp] theorem State.answer_responses : (s.answer r).responses = s.responses ++ [r] := rfl

@[simp] theorem assertReset_core : (assertReset s).core = TeaCore.reset := rfl
@[simp] theorem assertReset_port : (assertReset s).port = none := rfl
@[simp] theorem assertReset_moves : (assertReset s).moves = s.moves := rfl
@[simp] theorem assertReset_responses : (assertReset s).responses = s.responses := rfl

@[simp] theorem fill_key : (fill c).key = c.key := rfl
@[simp] theorem fill_keyv : (fill c).keyv = c.keyv := rfl
@[simp] theorem fill_rounds : (fill c).rounds = c.rounds := rfl
@[simp] theorem fill_v : (fill c).v = c.v := rfl
@[simp] theorem fill_sum : (fill c).sum = c.sum := rfl
@[simp] theorem fill_rcnt : (fill c).rcnt = c.rcnt := rfl
@[simp] theorem fill_phase : (fill c).phase = c.phase := rfl
@[simp] theorem fill_sto : (fill c).sto = c.sto := rfl
@[simp] theorem fill_ibuf : (fill c).ibuf = c.ibuf := rfl
@[simp] theorem fill_iovf : (fill c).iovf = c.iovf := rfl
@[simp] theorem fill_obuf : (fill c).obuf = blockToBytes c.v := rfl

@[simp] theorem dropOut_key : (dropOut n c).key = c.key := rfl
@[simp] theorem dropOut_keyv : (dropOut n c).keyv = c.keyv := rfl
@[simp] theorem dropOut_rounds : (dropOut n c).rounds = c.rounds := rfl
@[simp] theorem dropOut_v : (dropOut n c).v = c.v := rfl
@[simp] theorem dropOut_sum : (dropOut n c).sum = c.sum := rfl
@[simp] theorem dropOut_rcnt : (dropOut n c).rcnt = c.rcnt := rfl
@[simp] theorem dropOut_phase : (dropOut n c).phase = c.phase := rfl
@[simp] theorem dropOut_sto : (dropOut n c).sto = c.sto := rfl
@[simp] theorem dropOut_ibuf : (dropOut n c).ibuf = c.ibuf := rfl
@[simp] theorem dropOut_iovf : (dropOut n c).iovf = c.iovf := rfl
@[simp] theorem dropOut_obuf : (dropOut n c).obuf = c.obuf.drop n := rfl

@[simp] theorem loadBlock_key : (loadBlock b c).key = c.key := rfl
@[simp] theorem loadBlock_keyv : (loadBlock b c).keyv = c.keyv := rfl
@[simp] theorem loadBlock_rounds : (loadBlock b c).rounds = c.rounds := rfl
@[simp] theorem loadBlock_v : (loadBlock b c).v = b := rfl
@[simp] theorem loadBlock_sum : (loadBlock b c).sum = c.sum := rfl
@[simp] theorem loadBlock_rcnt : (loadBlock b c).rcnt = c.rcnt := rfl
@[simp] theorem loadBlock_phase : (loadBlock b c).phase = c.phase := rfl
@[simp] theorem loadBlock_sto : (loadBlock b c).sto = c.sto := rfl
@[simp] theorem loadBlock_ibuf : (loadBlock b c).ibuf = [] := rfl
@[simp] theorem loadBlock_iovf : (loadBlock b c).iovf = c.iovf := rfl
@[simp] theorem loadBlock_obuf : (loadBlock b c).obuf = c.obuf := rfl

@[simp] theorem startEncrypt_key : (startEncrypt q c).key = c.key := rfl
@[simp] theorem startEncrypt_keyv : (startEncrypt q c).keyv = c.keyv := rfl
@[simp] theorem startEncrypt_rounds : (startEncrypt q c).rounds = c.rounds := rfl
@[simp] theorem startEncrypt_v : (startEncrypt q c).v = c.v := rfl
@[simp] theorem startEncrypt_sum : (startEncrypt q c).sum = 0#32 := rfl
@[simp] theorem startEncrypt_rcnt : (startEncrypt q c).rcnt = c.rounds := rfl
@[simp] theorem startEncrypt_phase : (startEncrypt q c).phase = .encrypt := rfl
@[simp] theorem startEncrypt_sto : (startEncrypt q c).sto = q := rfl
@[simp] theorem startEncrypt_ibuf : (startEncrypt q c).ibuf = c.ibuf := rfl
@[simp] theorem startEncrypt_iovf : (startEncrypt q c).iovf = c.iovf := rfl
@[simp] theorem startEncrypt_obuf : (startEncrypt q c).obuf = c.obuf := rfl

@[simp] theorem startDecrypt_key : (startDecrypt q c).key = c.key := rfl
@[simp] theorem startDecrypt_keyv : (startDecrypt q c).keyv = c.keyv := rfl
@[simp] theorem startDecrypt_rounds : (startDecrypt q c).rounds = c.rounds := rfl
@[simp] theorem startDecrypt_v : (startDecrypt q c).v = c.v := rfl
@[simp] theorem startDecrypt_sum : (startDecrypt q c).sum = Config.delta * c.rounds := rfl
@[simp] theorem startDecrypt_rcnt : (startDecrypt q c).rcnt = c.rounds := rfl
@[simp] theorem startDecrypt_phase : (startDecrypt q c).phase = .decrypt := rfl
@[simp] theorem startDecrypt_sto : (startDecrypt q c).sto = q := rfl
@[simp] theorem startDecrypt_ibuf : (startDecrypt q c).ibuf = c.ibuf := rfl
@[simp] theorem startDecrypt_iovf : (startDecrypt q c).iovf = c.iovf := rfl
@[simp] theorem startDecrypt_obuf : (startDecrypt q c).obuf = c.obuf := rfl

@[simp] theorem encryptRoundStep_key : (encryptRoundStep c).key = c.key := rfl
@[simp] theorem encryptRoundStep_keyv : (encryptRoundStep c).keyv = c.keyv := rfl
@[simp] theorem encryptRoundStep_rounds : (encryptRoundStep c).rounds = c.rounds := rfl
@[simp] theorem encryptRoundStep_v : (encryptRoundStep c).v = encRound c.key (c.sum + Config.delta) c.v := rfl
@[simp] theorem encryptRoundStep_sum : (encryptRoundStep c).sum = c.sum + Config.delta := rfl
@[simp] theorem encryptRoundStep_rcnt : (encryptRoundStep c).rcnt = c.rcnt - 1#32 := rfl
@[simp] theorem encryptRoundStep_phase : (encryptRoundStep c).phase = c.phase := rfl
@[simp] theorem encryptRoundStep_sto : (encryptRoundStep c).sto = c.sto := rfl
@[simp] theorem encryptRoundStep_ibuf : (encryptRoundStep c).ibuf = c.ibuf := rfl
@[simp] theorem encryptRoundStep_iovf : (encryptRoundStep c).iovf = c.iovf := rfl
@[simp] theorem encryptRoundStep_obuf : (encryptRoundStep c).obuf = c.obuf := rfl

@[simp] theorem decryptRoundStep_key : (decryptRoundStep c).key = c.key := rfl
@[simp] theorem decryptRoundStep_keyv : (decryptRoundStep c).keyv = c.keyv := rfl
@[simp] theorem decryptRoundStep_rounds : (decryptRoundStep c).rounds = c.rounds := rfl
@[simp] theorem decryptRoundStep_v : (decryptRoundStep c).v = decRound c.key c.sum c.v := rfl
@[simp] theorem decryptRoundStep_sum : (decryptRoundStep c).sum = c.sum - Config.delta := rfl
@[simp] theorem decryptRoundStep_rcnt : (decryptRoundStep c).rcnt = c.rcnt - 1#32 := rfl
@[simp] theorem decryptRoundStep_phase : (decryptRoundStep c).phase = c.phase := rfl
@[simp] theorem decryptRoundStep_sto : (decryptRoundStep c).sto = c.sto := rfl
@[simp] theorem decryptRoundStep_ibuf : (decryptRoundStep c).ibuf = c.ibuf := rfl
@[simp] theorem decryptRoundStep_iovf : (decryptRoundStep c).iovf = c.iovf := rfl
@[simp] theorem decryptRoundStep_obuf : (decryptRoundStep c).obuf = c.obuf := rfl

@[simp] theorem finishStep_key : (finishStep c).key = c.key := by unfold finishStep; split <;> rfl
@[simp] theorem finishStep_keyv : (finishStep c).keyv = c.keyv := by unfold finishStep; split <;> rfl
@[simp] theorem finishStep_rounds : (finishStep c).rounds = c.rounds := by unfold finishStep; split <;> rfl
@[simp] theorem finishStep_v : (finishStep c).v = c.v := by unfold finishStep; split <;> rfl
@[simp] theorem finishStep_sum : (finishStep c).sum = c.sum := by unfold finishStep; split <;> rfl
@[simp] theorem finishStep_rcnt : (finishStep c).rcnt = c.rcnt := by unfold finishStep; split <;> rfl
@[simp] theorem finishStep_phase : (finishStep c).phase = .idle := rfl
@[simp] theorem finishStep_sto : (finishStep c).sto = false := rfl
@[simp] theorem finishStep_ibuf : (finishStep c).ibuf = c.ibuf := by unfold finishStep; split <;> rfl
@[simp] theorem finishStep_iovf : (finishStep c).iovf = c.iovf := by unfold finishStep; split <;> rfl
@[simp] theorem finishStep_obuf :
    (finishStep c).obuf = if c.sto = true then blockToBytes c.v else c.obuf := by
  unfold finishStep; split <;> rfl

end Sys2Proof.Machine
end

