-- ==== Sys2Proof/Laws/Ops.lean ====
section
/-! SUPPORT. What each shared operation of Machine/Ops.lean can do, said once. -/

namespace Sys2Proof.Machine

/-- Either the byte is appended and nothing else changes, or it is dropped and only `IOVF` is set (R51). -/
theorem push_cases (b : Byte) (c : TeaCore) :
    (c.ibuf.length < 16 ∧ push b c = { c with ibuf := c.ibuf ++ [b] }) ∨
      (16 ≤ c.ibuf.length ∧ push b c = { c with iovf := true }) := by
  unfold push Config.ibufCap
  split
  · next h => exact .inl ⟨h, rfl⟩
  · next h => exact .inr ⟨by omega, rfl⟩

/-- A push touches the input buffer and its overflow flag only. -/
theorem push_frame (b : Byte) (c : TeaCore) :
    push b c = { c with ibuf := (push b c).ibuf, iovf := (push b c).iovf } := by
  obtain ⟨_, h⟩ | ⟨_, h⟩ := push_cases b c <;> rw [h]

/-- Pushing a list of bytes one after another touches the input buffer and its overflow flag only. -/
theorem foldl_push_frame (bs : List Byte) (c : TeaCore) :
    bs.foldl (fun d b => push b d) c =
      { c with ibuf := (bs.foldl (fun d b => push b d) c).ibuf, iovf := (bs.foldl (fun d b => push b d) c).iovf } := by
  induction bs generalizing c with
  | nil => rfl
  | cons b bs ih => rw [List.foldl_cons, ih, push_frame b c]

/-- Pushing a list of bytes fills the buffer up to 16 bytes, in order, and `IOVF` is set as soon as one finds it full
(R51, D4). -/
theorem foldl_push_buffer (bs : List Byte) (c : TeaCore) (h : c.ibuf.length ≤ 16) :
    (bs.foldl (fun d b => push b d) c).ibuf = (c.ibuf ++ bs).take 16 ∧
      (bs.foldl (fun d b => push b d) c).iovf = (c.iovf || decide (16 < c.ibuf.length + bs.length)) := by
  induction bs generalizing c with
  | nil => simp [List.take_of_length_le h, h]
  | cons b bs ih =>
    rw [List.foldl_cons]
    obtain ⟨hl, e⟩ | ⟨hl, e⟩ := push_cases b c
    · rw [e]
      have := ih { c with ibuf := c.ibuf ++ [b] } (by simp; omega)
      simp only [List.length_append, List.append_assoc, List.singleton_append, List.length_singleton] at this
      refine ⟨this.1, ?_⟩
      rw [this.2]; simp only [List.length_cons]; congr 2; exact propext (by omega)
    · rw [e]
      have h16 : c.ibuf.length = 16 := by omega
      have := ih { c with iovf := true } h
      refine ⟨?_, ?_⟩
      · rw [this.1, List.take_append_of_le_length (by omega), List.take_append_of_le_length (by omega)]
      · rw [this.2]; simp [h16]

/-- The two answers a command can give share one shape. -/
theorem respond_eq (v : Word) (s : State) : respond v s = .next (s.answer (rspWord .ok v)) := rfl

theorem raise_eq (e : Code) (s : State) : raise e s = .next (s.answer (rspWord e 0#32)) := rfl

/-- In this hardware `SETR` cannot fail: `RCW = 32` and the operand has 32 bits (R121). -/
theorem setRounds_rcw (n : Word) (s : State) :
    setRounds Config.rcw n s = respond 0#32 (s.withCore { s.core with rounds := n }) := by
  have := n.isLt
  unfold setRounds Config.rcw
  split
  · omega
  · rfl

@[simp] theorem rspWord_code (e : Code) (d : Word) : (rspWord e d).extractLsb' 32 4 = e.number := by
  unfold rspWord; exact BitVec.extractLsb'_append_eq_left

@[simp] theorem rspWord_data (e : Code) (d : Word) : (rspWord e d).extractLsb' 0 32 = d := by
  unfold rspWord; exact BitVec.extractLsb'_append_eq_right

/-- The canonical form of the two buffers is I1 of R37. -/
theorem Memory.wf_iff {c : TeaCore} : Memory.wf c = true ↔ c.ibuf.length ≤ 16 ∧ c.obuf.length ≤ 8 := by
  unfold Memory.wf Config.ibufCap Config.obufCap
  rw [Bool.and_eq_true, decide_eq_true_iff, decide_eq_true_iff]

/-- Every push keeps the buffers within their capacities. -/
theorem push_wf (b : Byte) {c : TeaCore} (h : Memory.wf c = true) : Memory.wf (push b c) = true := by
  rw [Memory.wf_iff] at *
  obtain ⟨hl, e⟩ | ⟨_, e⟩ := push_cases b c
  · rw [e]; simp only [List.length_append, List.length_singleton]; omega
  · rw [e]; exact h

theorem pushWord_wf (w : Word) {c : TeaCore} (h : Memory.wf c = true) : Memory.wf (pushWord w c) = true := by
  simp only [pushWord, bytesBe, List.foldl_cons, List.foldl_nil]
  exact push_wf _ (push_wf _ (push_wf _ (push_wf _ h)))

theorem fill_wf {c : TeaCore} (h : Memory.wf c = true) : Memory.wf (fill c) = true := by
  rw [Memory.wf_iff] at *
  exact ⟨h.1, by simp⟩

theorem dropOut_wf (n : Nat) {c : TeaCore} (h : Memory.wf c = true) : Memory.wf (dropOut n c) = true := by
  rw [Memory.wf_iff] at *
  exact ⟨h.1, by rw [dropOut_obuf, List.length_drop]; omega⟩

theorem loadBlock_wf (b : Block) {c : TeaCore} (h : Memory.wf c = true) : Memory.wf (loadBlock b c) = true := by
  rw [Memory.wf_iff] at *
  exact ⟨by simp, h.2⟩

theorem startEncrypt_wf (q : Bool) {c : TeaCore} (h : Memory.wf c = true) : Memory.wf (startEncrypt q c) = true := h

theorem startDecrypt_wf (q : Bool) {c : TeaCore} (h : Memory.wf c = true) : Memory.wf (startDecrypt q c) = true := h

theorem finishStep_wf {c : TeaCore} (h : Memory.wf c = true) : Memory.wf (finishStep c) = true := by
  rw [Memory.wf_iff] at *
  refine ⟨by simpa using h.1, ?_⟩
  rw [finishStep_obuf]
  split
  · simp
  · exact h.2

theorem TeaCore.reset_wf : Memory.wf TeaCore.reset = true := by decide

end Sys2Proof.Machine
end

