-- ==== Sys2Proof/Laws/PerInstr.lean ====
section
/-! SUPPORT. The family EncodeThenDecode: for one instruction, decoding its encoding gives it back (R78). -/

namespace Sys2Proof.Laws.EncodeThenDecode

/-- Decoding the encoding of `i` gives `i` with its operand. -/
def Statement (i : Instr) : Prop := decode (encode i) = .ok i

theorem nop : Statement .nop := by unfold Statement; decide
theorem clri : Statement .clri := by unfold Statement; decide
theorem clro : Statement .clro := by unfold Statement; decide
theorem popb : Statement .popb := by unfold Statement; decide
theorem popw : Statement .popw := by unfold Statement; decide
theorem keyld : Statement .keyld := by unfold Statement; decide
theorem rdr : Statement .rdr := by unfold Statement; decide
theorem rdv0 : Statement .rdv0 := by unfold Statement; decide
theorem rdv1 : Statement .rdv1 := by unfold Statement; decide
theorem ldblk : Statement .ldblk := by unfold Statement; decide
theorem stblk : Statement .stblk := by unfold Statement; decide
theorem encr : Statement .encr := by unfold Statement; decide
theorem decr : Statement .decr := by unfold Statement; decide
theorem enc : Statement .enc := by unfold Statement; decide
theorem dec : Statement .dec := by unfold Statement; decide
theorem rdstat : Statement .rdstat := by unfold Statement; decide
theorem rdbsz : Statement .rdbsz := by unfold Statement; decide
theorem rdksz : Statement .rdksz := by unfold Statement; decide

theorem pushb (imm8 : Byte) : Statement (.pushb imm8) := by
  simp [Statement, decode, Instr.mnemonic, Mnemonic.op, Instr.arg, decodeB, setWidth_byte_high, setWidth_byte_low]

theorem pushw (imm32 : Word) : Statement (.pushw imm32) := by
  simp [Statement, decode, Instr.mnemonic, Mnemonic.op, Instr.arg]

theorem setr (imm32 : Word) : Statement (.setr imm32) := by
  simp [Statement, decode, Instr.mnemonic, Mnemonic.op, Instr.arg]

theorem wrv0 (imm32 : Word) : Statement (.wrv0 imm32) := by
  simp [Statement, decode, Instr.mnemonic, Mnemonic.op, Instr.arg]

theorem wrv1 (imm32 : Word) : Statement (.wrv1 imm32) := by
  simp [Statement, decode, Instr.mnemonic, Mnemonic.op, Instr.arg]

end Sys2Proof.Laws.EncodeThenDecode
end

