-- ==== Sys2Proof/Laws/Step.lean ====
section
/-! SUPPORT. What an accepted command, an engine step and a step of the machine can do, said once each. -/

namespace Sys2Proof.Machine

/-- Every accepted command gives one next state: either an error that changes nothing, or `OK` with a new TEA-CORE
state (R72, R203). -/
theorem exec_cases (i : Instr) (s : State) :
    (∃ e, e ≠ .ok ∧ e ≠ .invalidKeyFormat ∧ e ≠ .invalidRoundCount ∧ exec i s = .next (s.answer (rspWord e 0#32))) ∨
      (∃ c d, exec i s = .next ((s.withCore c).answer (rspWord .ok d))) := by
  have ok (c : TeaCore) (d : Word) (h : exec i s = .next ((s.withCore c).answer (rspWord .ok d))) :
      (∃ e, e ≠ .ok ∧ e ≠ .invalidKeyFormat ∧ e ≠ .invalidRoundCount ∧ exec i s = .next (s.answer (rspWord e 0#32))) ∨
        (∃ c d, exec i s = .next ((s.withCore c).answer (rspWord .ok d))) := .inr ⟨c, d, h⟩
  have er (e : Code) (h : e ≠ .ok ∧ e ≠ .invalidKeyFormat ∧ e ≠ .invalidRoundCount)
      (h' : exec i s = .next (s.answer (rspWord e 0#32))) :
      (∃ e, e ≠ .ok ∧ e ≠ .invalidKeyFormat ∧ e ≠ .invalidRoundCount ∧ exec i s = .next (s.answer (rspWord e 0#32))) ∨
        (∃ c d, exec i s = .next ((s.withCore c).answer (rspWord .ok d))) := .inl ⟨e, h.1, h.2.1, h.2.2, h'⟩
  cases i with
  | nop => exact ok s.core _ rfl
  | clri => exact ok _ _ rfl
  | pushb b => exact ok _ _ rfl
  | pushw w => exact ok _ _ rfl
  | clro => exact ok _ _ rfl
  | popb =>
    cases h : memRead1 s.core.obuf 0 with
    | none => exact er .outputUnderrun (by decide) (by simp only [exec, execPopb, h, raise_eq])
    | some b => exact ok (dropOut 1 s.core) (b.setWidth 32) (by simp only [exec, execPopb, h, respond_eq])
  | popw =>
    cases h : memRead4 s.core.obuf 0 with
    | none => exact er .outputUnderrun (by decide) (by simp only [exec, execPopw, h, raise_eq])
    | some w => exact ok (dropOut 4 s.core) w (by simp only [exec, execPopw, h, respond_eq])
  | keyld =>
    cases h : keyIn s.core with
    | none => exact er .invalidKeyLength (by decide) (by simp only [exec, execKeyld, h, raise_eq])
    | some k => exact ok { s.core with key := k, keyv := true, ibuf := [] } 0#32 (by simp only [exec, execKeyld, h, respond_eq])
  | setr n => exact ok { s.core with rounds := n } 0#32 (by simp only [exec, execSetr, setRounds_rcw, respond_eq])
  | rdr => exact ok s.core _ rfl
  | wrv0 w => exact ok _ _ rfl
  | wrv1 w => exact ok _ _ rfl
  | rdv0 => exact ok s.core _ rfl
  | rdv1 => exact ok s.core _ rfl
  | ldblk =>
    cases h : blockIn s.core with
    | none => exact er .invalidBlockLength (by decide) (by simp only [exec, execLdblk, h, raise_eq])
    | some b => exact ok (loadBlock b s.core) 0#32 (by simp only [exec, execLdblk, h, respond_eq])
  | stblk => exact ok _ _ rfl
  | encr =>
    cases h : s.core.keyv with
    | false => exact er .noKey (by decide) (by simp [exec, execEncr, h, raise_eq])
    | true => exact ok (startEncrypt false s.core) 0#32 (by simp [exec, execEncr, h, respond_eq])
  | decr =>
    cases h : s.core.keyv with
    | false => exact er .noKey (by decide) (by simp [exec, execDecr, h, raise_eq])
    | true => exact ok (startDecrypt false s.core) 0#32 (by simp [exec, execDecr, h, respond_eq])
  | enc =>
    cases h : s.core.keyv with
    | false => exact er .noKey (by decide) (by simp [exec, execEnc, h, raise_eq])
    | true =>
      cases hb : blockIn s.core with
      | none => exact er .invalidBlockLength (by decide) (by simp [exec, execEnc, h, hb, raise_eq])
      | some b => exact ok (startEncrypt true (loadBlock b s.core)) 0#32 (by simp [exec, execEnc, h, hb, respond_eq])
  | dec =>
    cases h : s.core.keyv with
    | false => exact er .noKey (by decide) (by simp [exec, execDec, h, raise_eq])
    | true =>
      cases hb : blockIn s.core with
      | none => exact er .invalidBlockLength (by decide) (by simp [exec, execDec, h, hb, raise_eq])
      | some b => exact ok (startDecrypt true (loadBlock b s.core)) 0#32 (by simp [exec, execDec, h, hb, respond_eq])
  | rdstat => exact ok s.core _ rfl
  | rdbsz => exact ok s.core _ rfl
  | rdksz => exact ok s.core _ rfl

/-- An accepted word gives one next state with one more response; port and moves are as before. -/
theorem acceptWord_cases (w : CmdWord) (s : State) :
    (∃ e, e ≠ .ok ∧ e ≠ .invalidKeyFormat ∧ e ≠ .invalidRoundCount ∧
        acceptWord w s = .next (s.answer (rspWord e 0#32))) ∨
      (∃ i c d, decode w = .ok i ∧ exec i s = acceptWord w s ∧
        acceptWord w s = .next ((s.withCore c).answer (rspWord .ok d))) := by
  cases h : decode w with
  | error e =>
    exact .inl ⟨.illegalCommand, by decide, by decide, by decide, by simp only [acceptWord, h, raise_eq]⟩
  | ok i =>
    have e : acceptWord w s = exec i s := by simp only [acceptWord, h]
    rw [e]
    obtain ⟨x, h1, h2, h3, h4⟩ | ⟨c, d, h4⟩ := exec_cases i s
    · exact .inl ⟨x, h1, h2, h3, h4⟩
    · exact .inr ⟨i, c, d, rfl, rfl, h4⟩

/-- Which engine step is enabled (R148). -/
theorem engineStep_cases (c : TeaCore) :
    (c.phase = .idle ∧ engineStep c = none) ∨
      (c.phase ≠ .idle ∧ c.rcnt = 0#32 ∧ engineStep c = some (finishStep c)) ∨
      (c.phase = .encrypt ∧ c.rcnt ≠ 0#32 ∧ engineStep c = some (encryptRoundStep c)) ∨
      (c.phase = .decrypt ∧ c.rcnt ≠ 0#32 ∧ engineStep c = some (decryptRoundStep c)) := by
  unfold engineStep
  cases h : c.phase with
  | idle => exact .inl ⟨rfl, rfl⟩
  | encrypt =>
    by_cases hr : c.rcnt = 0#32
    · exact .inr (.inl ⟨by decide, hr, by simp [hr]⟩)
    · exact .inr (.inr (.inl ⟨rfl, hr, by simp only [if_neg hr]⟩))
  | decrypt =>
    by_cases hr : c.rcnt = 0#32
    · exact .inr (.inl ⟨by decide, hr, by simp [hr]⟩)
    · exact .inr (.inr (.inr ⟨rfl, hr, by simp only [if_neg hr]⟩))

theorem busy_eq_false {c : TeaCore} : busy c = false ↔ c.phase = .idle := by
  unfold busy; simp

theorem busy_eq_true {c : TeaCore} : busy c = true ↔ c.phase ≠ .idle := by
  unfold busy; simp

theorem engineTurn_of_idle {s : State} (h : s.core.phase = .idle) : engineTurn s = s := by
  obtain ⟨_, e⟩ | ⟨hn, _⟩ | ⟨hn, _⟩ | ⟨hn, _⟩ := engineStep_cases s.core
  · simp only [engineTurn, e]
  · exact absurd h hn
  · rw [h] at hn; cases hn
  · rw [h] at hn; cases hn

theorem engineTurn_of_some {s : State} {c : TeaCore} (h : engineStep s.core = some c) : engineTurn s = s.withCore c := by
  simp only [engineTurn, h]

/-- A command whose `op` is not 0x60 is accepted exactly when the engine is idle (R73). -/
theorem accepts_eq {p : Phase} {w : CmdWord} : accepts p w = true ↔ opField w = 0x60#8 ∨ p = .idle := by
  unfold accepts; simp

/-- What a turn of the port can do. -/
theorem portTurn_cases (s : State) :
    (∃ w, s.port = some w ∧ accepts s.core.phase w = true ∧ portTurn s = acceptWord w { s with port := none }) ∨
      ((∀ w, s.port = some w → accepts s.core.phase w = false) ∧ portTurn s = .next (engineTurn s)) := by
  unfold portTurn
  cases h : s.port with
  | none => exact .inr ⟨fun w e => (nomatch e), rfl⟩
  | some w =>
    cases ha : accepts s.core.phase w with
    | true => exact .inl ⟨w, rfl, ha, by simp [ha]⟩
    | false => exact .inr ⟨fun w' e => by cases e; exact ha, by simp [ha]⟩

/-- What a step can do: it is refused, or a step with `rst` asserted, or the engine's turn, or the acceptance of a word;
`t` is the state with the next move taken off the list and the port filled by it where it presents a word. -/
theorem step_cases (s : State) :
    (∃ ms, s.moves = .outsideTable :: ms ∧ step s = .refused .hostOutsideTable) ∨
      (∃ ms, s.moves = .rst :: ms ∧ step s = .next (assertReset { s with moves := ms })) ∨
      (∃ t : State, t.core = s.core ∧ t.responses = s.responses ∧
        (step s = .next (engineTurn t) ∨
          ∃ w, accepts t.core.phase w = true ∧ step s = acceptWord w { t with port := none })) := by
  have port (t : State) (h : t.core = s.core ∧ t.responses = s.responses) (e : step s = portTurn t) :
      ∃ t : State, t.core = s.core ∧ t.responses = s.responses ∧
        (step s = .next (engineTurn t) ∨
          ∃ w, accepts t.core.phase w = true ∧ step s = acceptWord w { t with port := none }) := by
    refine ⟨t, h.1, h.2, ?_⟩
    obtain ⟨w, _, ha, hp⟩ | ⟨_, hp⟩ := portTurn_cases t
    · exact .inr ⟨w, ha, by rw [e, hp]⟩
    · exact .inl (by rw [e, hp])
  cases hm : s.moves with
  | nil => exact .inr (.inr (port s ⟨rfl, rfl⟩ (by simp only [step, turn, hm])))
  | cons m ms =>
    cases m with
    | outsideTable => exact .inl ⟨ms, rfl, by simp only [step, turn, hm]⟩
    | rst => exact .inr (.inl ⟨ms, rfl, by simp only [step, turn, hm]⟩)
    | engine =>
      refine .inr (.inr ?_)
      cases hb : busy s.core with
      | true => exact ⟨{ s with moves := ms }, rfl, rfl, .inl (by simp [step, turn, hm, hb])⟩
      | false => exact port { s with moves := ms } ⟨rfl, rfl⟩ (by simp [step, turn, hm, hb])
    | present w =>
      refine .inr (.inr ?_)
      cases hp : s.port with
      | none => exact port { s with port := some w, moves := ms } ⟨rfl, rfl⟩ (by simp only [step, turn, hm, hp])
      | some w' => exact port s ⟨rfl, rfl⟩ (by simp only [step, turn, hm, hp])

end Sys2Proof.Machine
end

