-- ==== Sys2Proof/Laws/Run.lean ====
section
/-! SUPPORT. Runs: splitting a run, the engine steps of a whole operation, and how a run of the machine takes them while nothing
or a held word is on the port. -/

namespace Sys2Proof.Machine

theorem run_succ (n : Nat) (s t : State) (h : step s = .next t) : run (n + 1) s = run n t := by
  simp only [run, h]

/-- A run may be split at any step. -/
theorem run_add {m : Nat} {s t : State} (h : run m s = .next t) (n : Nat) : run (m + n) s = run n t := by
  induction m generalizing s with
  | zero => cases h; rw [Nat.zero_add]
  | succ m ih =>
    rw [show m + 1 + n = m + n + 1 by omega]
    simp only [run] at h ⊢
    split at h
    · next u hu => exact ih h
    · cases h
    · cases h

theorem engineSteps_add {m : Nat} {c d : TeaCore} (h : engineSteps m c = some d) (n : Nat) :
    engineSteps (m + n) c = engineSteps n d := by
  induction m generalizing c with
  | zero => cases h; rw [Nat.zero_add]
  | succ m ih =>
    rw [show m + 1 + n = m + n + 1 by omega]
    simp only [engineSteps] at h ⊢
    split at h
    · exact ih h
    · cases h

theorem engineSteps_one (c : TeaCore) : engineSteps 1 c = engineStep c := by
  simp only [engineSteps]; cases engineStep c <;> rfl

/-- An enabled engine step means that the engine is busy (R148). -/
theorem phase_ne_idle_of_engineStep {c d : TeaCore} (h : engineStep c = some d) : c.phase ≠ .idle := by
  intro e; rw [engineStep, e] at h; cases h

theorem BitVec_toNat_eq_zero {w : Word} (h : w.toNat = 0) : w = 0#32 := BitVec.eq_of_toNat_eq (by simpa using h)

theorem toNat_sub_one {w : Word} (h : w ≠ 0#32) : (w - 1#32).toNat = w.toNat - 1 := by
  have : w.toNat ≠ 0 := fun e => h (BitVec_toNat_eq_zero e)
  have := w.isLt
  rw [BitVec.toNat_sub_of_le (by rw [BitVec.le_def]; simp; omega)]; rfl

/-- A busy engine goes idle after exactly `RCNT` round steps and the finish step (R148, R245). -/
theorem engineSteps_to_idle (c : TeaCore) (h : c.phase ≠ .idle) :
    ∃ d, engineSteps (c.rcnt.toNat + 1) c = some d ∧ d.phase = .idle := by
  generalize hn : c.rcnt.toNat = n
  induction n generalizing c with
  | zero =>
    have h0 : c.rcnt = 0#32 := BitVec_toNat_eq_zero hn
    obtain ⟨hi, _⟩ | ⟨_, _, e⟩ | ⟨_, hr, _⟩ | ⟨_, hr, _⟩ := engineStep_cases c
    · exact absurd hi h
    · exact ⟨finishStep c, by rw [engineSteps_one, e], by simp⟩
    · exact absurd h0 hr
    · exact absurd h0 hr
  | succ n ih =>
    have hr : c.rcnt ≠ 0#32 := by intro e; rw [e] at hn; simp at hn
    have hd := toNat_sub_one hr
    obtain ⟨hi, _⟩ | ⟨_, h0, _⟩ | ⟨hp, _, e⟩ | ⟨hp, _, e⟩ := engineStep_cases c
    · exact absurd hi h
    · exact absurd h0 hr
    · obtain ⟨d, hd1, hd2⟩ := ih (encryptRoundStep c) (by simp [hp]) (by rw [encryptRoundStep_rcnt]; omega)
      exact ⟨d, by rw [engineSteps, e]; exact hd1, hd2⟩
    · obtain ⟨d, hd1, hd2⟩ := ih (decryptRoundStep c) (by simp [hp]) (by rw [decryptRoundStep_rcnt]; omega)
      exact ⟨d, by rw [engineSteps, e]; exact hd1, hd2⟩

/-- The state of an encryption after `m` of its rounds (R153). -/
theorem engineSteps_encrypt (c : TeaCore) (q : Bool) (m : Nat) (h : m ≤ c.rounds.toNat) :
    engineSteps m (startEncrypt q c) =
      some { startEncrypt q c with
        v := encRounds c.key m c.v, sum := Config.delta * BitVec.ofNat 32 m,
        rcnt := BitVec.ofNat 32 (c.rounds.toNat - m) } := by
  induction m with
  | zero => simp [engineSteps, encRounds, startEncrypt]
  | succ m ih =>
    rw [engineSteps_add (ih (by omega)) 1, engineSteps_one]
    have hlt := c.rounds.isLt
    have hr : BitVec.ofNat 32 (c.rounds.toNat - m) ≠ 0#32 := by
      intro e; have := congrArg BitVec.toNat e; simp at this; omega
    have hd : BitVec.ofNat 32 (c.rounds.toNat - m) - 1#32 = BitVec.ofNat 32 (c.rounds.toNat - (m + 1)) := by
      apply BitVec.eq_of_toNat_eq; rw [toNat_sub_one hr]; simp; omega
    simp only [engineStep, startEncrypt_phase, if_neg hr, encryptRoundStep, startEncrypt_key, hd, encRounds,
      ← delta_mul_succ]

/-- The state of a decryption after `m` of its rounds (R154). -/
theorem engineSteps_decrypt (c : TeaCore) (q : Bool) (m : Nat) (h : m ≤ c.rounds.toNat) :
    engineSteps m (startDecrypt q c) =
      some { startDecrypt q c with
        v := decRounds c.key c.rounds.toNat m c.v, sum := Config.delta * BitVec.ofNat 32 (c.rounds.toNat - m),
        rcnt := BitVec.ofNat 32 (c.rounds.toNat - m) } := by
  induction m with
  | zero => simp [engineSteps, decRounds, startDecrypt]
  | succ m ih =>
    rw [engineSteps_add (ih (by omega)) 1, engineSteps_one]
    have hlt := c.rounds.isLt
    have hr : BitVec.ofNat 32 (c.rounds.toNat - m) ≠ 0#32 := by
      intro e; have := congrArg BitVec.toNat e; simp at this; omega
    have hd : BitVec.ofNat 32 (c.rounds.toNat - m) - 1#32 = BitVec.ofNat 32 (c.rounds.toNat - (m + 1)) := by
      apply BitVec.eq_of_toNat_eq; rw [toNat_sub_one hr]; simp; omega
    have hs : Config.delta * BitVec.ofNat 32 (c.rounds.toNat - m) - Config.delta =
        Config.delta * BitVec.ofNat 32 (c.rounds.toNat - (m + 1)) := by
      have := delta_mul_pred (c.rounds.toNat - (m + 1))
      rwa [show c.rounds.toNat - (m + 1) + 1 = c.rounds.toNat - m by omega] at this
    simp only [engineStep, startDecrypt_phase, if_neg hr, decryptRoundStep, startDecrypt_key, hd, hs, decRounds]

/-- A whole encryption, from just after its start step to idle (R153). -/
theorem engineSteps_encrypt_all (c : TeaCore) (q : Bool) :
    engineSteps (c.rounds.toNat + 1) (startEncrypt q c) =
      some { c with
        v := encryptBlock c.key c.rounds.toNat c.v, sum := Config.delta * c.rounds, rcnt := 0#32, phase := .idle,
        sto := false,
        obuf := if q = true then blockToBytes (encryptBlock c.key c.rounds.toNat c.v) else c.obuf } := by
  rw [engineSteps_add (engineSteps_encrypt c q _ (Nat.le_refl _)) 1, engineSteps_one]
  cases q <;> simp [engineStep, finishStep, fill, startEncrypt, encryptBlock]

/-- A whole decryption, from just after its start step to idle (R154). -/
theorem engineSteps_decrypt_all (c : TeaCore) (q : Bool) :
    engineSteps (c.rounds.toNat + 1) (startDecrypt q c) =
      some { c with
        v := decryptBlock c.key c.rounds.toNat c.v, sum := 0#32, rcnt := 0#32, phase := .idle, sto := false,
        obuf := if q = true then blockToBytes (decryptBlock c.key c.rounds.toNat c.v) else c.obuf } := by
  rw [engineSteps_add (engineSteps_decrypt c q _ (Nat.le_refl _)) 1, engineSteps_one]
  cases q <;> simp [engineStep, finishStep, fill, startDecrypt, decryptBlock]

/-- With nothing to do for the host, the run takes the engine steps. -/
theorem run_engineSteps {n : Nat} {s : State} {c : TeaCore} (hp : s.port = none) (hm : s.moves = [])
    (h : engineSteps n s.core = some c) : run n s = .next (s.withCore c) := by
  induction n generalizing s with
  | zero => cases h; rfl
  | succ n ih =>
    simp only [engineSteps] at h
    split at h
    · next d hd =>
      have e : step s = .next (s.withCore d) := by
        simp only [step, turn, hm, portTurn, hp, engineTurn_of_some hd]
      rw [run_succ n s _ e, ih (s := s.withCore d) hp hm h]; rfl
    · cases h

/-- Moves that only present words, as those of a program do. -/
def onlyPresents (ms : List Move) : Prop := ∀ m ∈ ms, ∃ w, m = .present w

theorem onlyPresents_program (is : List Instr) : onlyPresents (program is) := by
  intro m hm
  simp only [program, List.mem_map] at hm
  obtain ⟨i, _, rfl⟩ := hm
  exact ⟨_, rfl⟩

/-- With a word on the port and only words to present, a step is the port's turn. -/
theorem step_of_port {s : State} {w : CmdWord} (hp : s.port = some w) (hm : onlyPresents s.moves) :
    step s = portTurn s := by
  cases h : s.moves with
  | nil => simp only [step, turn, h]
  | cons m ms =>
    obtain ⟨w', rfl⟩ := hm m (by rw [h]; exact List.mem_cons_self)
    simp only [step, turn, h, hp]

/-- While a word is held the run takes the engine steps, and the word stays on the port (R73). -/
theorem run_held {n : Nat} {s : State} {c : TeaCore} {w : CmdWord} (hw : opField w ≠ 0x60#8) (hp : s.port = some w)
    (hm : onlyPresents s.moves) (h : engineSteps n s.core = some c) : run n s = .next (s.withCore c) := by
  induction n generalizing s with
  | zero => cases h; rfl
  | succ n ih =>
    simp only [engineSteps] at h
    split at h
    · next d hd =>
      have ha : accepts s.core.phase w = false := by
        rw [← Bool.not_eq_true, accepts_eq]
        exact fun e => e.elim hw (phase_ne_idle_of_engineStep hd)
      have e : step s = .next (s.withCore d) := by
        rw [step_of_port hp hm]
        simp only [portTurn, hp, ha, engineTurn_of_some hd]
        rfl
      rw [run_succ n s _ e, ih (s := s.withCore d) hp hm h]; rfl
    · cases h

/-- An idle machine accepts the next command of the host's program at once. -/
theorem step_program {s : State} {i : Instr} {ms : List Move} (hi : s.core.phase = .idle) (hp : s.port = none)
    (hm : s.moves = .present (encode i) :: ms) (hd : decode (encode i) = .ok i) :
    step s = exec i { s with moves := ms } := by
  have ha : accepts .idle (encode i) = true := accepts_eq.2 (.inr rfl)
  obtain ⟨c, p, m, r⟩ := s
  subst hp hm
  simp only at hi
  simp only [step, turn, portTurn, hi, ha, acceptWord, hd, if_true]

/-- A busy machine holds the next command of the host's program until the operation has ended, and then runs it. -/
theorem run_program_busy {n : Nat} {s : State} {c : TeaCore} {i : Instr} {ms : List Move} (hp : s.port = none)
    (hm : s.moves = .present (encode i) :: ms) (ho : onlyPresents ms) (hw : opField (encode i) ≠ 0x60#8)
    (hd : decode (encode i) = .ok i) (h : engineSteps (n + 1) s.core = some c) (hc : c.phase = .idle) {t : State}
    (ht : exec i { s with core := c, moves := ms } = .next t) : run (n + 2) s = .next t := by
  have e1 : step s = portTurn { s with port := some (encode i), moves := ms } := by
    simp only [step, turn, hm, hp]
  simp only [engineSteps] at h
  split at h
  · next d hd1 =>
    have ha : accepts s.core.phase (encode i) = false := by
      rw [← Bool.not_eq_true, accepts_eq]
      exact fun e => e.elim hw (phase_ne_idle_of_engineStep hd1)
    have e2 : step s = .next { s with core := d, port := some (encode i), moves := ms } := by
      rw [e1]
      simp only [portTurn, ha]
      rw [engineTurn_of_some (s := { s with port := some (encode i), moves := ms }) hd1]
      rfl
    rw [show n + 2 = (n + 1) + 1 by omega, run_succ (n + 1) s _ e2]
    have e3 := run_held (s := { s with core := d, port := some (encode i), moves := ms }) hw rfl ho h
    rw [run_add e3 1]
    have e4 : step (State.withCore { s with core := d, port := some (encode i), moves := ms } c) = .next t := by
      rw [step_of_port (w := encode i) rfl ho]
      have ha' : accepts c.phase (encode i) = true := accepts_eq.2 (.inr hc)
      simp only [portTurn, State.withCore, ha', acceptWord, hd, if_true]
      rw [← ht]
      congr 1
      cases s; subst hp; rfl
    rw [run_succ 0 _ _ e4]; rfl
  · cases h

end Sys2Proof.Machine
end

