-- ==== Sys2Proof/Tests/Slice0.lean ====
section
/-! SUPPORT. Tests. Expected results are the spec's: the encoding tables of 30_encoding.md, the vectors of 95_test_vectors.md
(V1 to V6, G1) and the examples of the rules named. The second half gives, for every obligation with hypotheses, a concrete
state and operands that meet them. -/

namespace Sys2Proof.Tests.Slice0

open Sys2Proof Sys2Proof.Machine

/-- The next state of a result, if it has one. -/
def nextOf : Result → Option State
  | .next s => some s
  | .fault _ => none
  | .refused _ => none

/-- The TEA-CORE state after a command. -/
def coreAfter (r : Result) : Option TeaCore := (nextOf r).map State.core

/-- The responses given so far after a command. -/
def answers (r : Result) : Option (List RspWord) := (nextOf r).map State.responses

/-- The machine in a given TEA-CORE state, with nothing presented. -/
def machine (c : TeaCore) : State := { State.reset with core := c }

/-- The reset state with a loaded key and a block. -/
def keyed (k : Key) (v : Block) : TeaCore := { TeaCore.reset with key := k, keyv := true, v := v }

/-- A running encryption with `n` rounds to go. -/
def encrypting (n : Word) : TeaCore :=
  { keyed ⟨1, 2, 3, 4⟩ ⟨5, 6⟩ with phase := .encrypt, rcnt := n, rounds := n, sto := true }

/-- The key `kat` of S4. -/
def kat : Key := ⟨0x71776572, 0x74797569, 0x6F706173, 0x64666768⟩

/-- The key `k2` of V4. -/
def k2 : Key := ⟨0x01234567, 0x89ABCDEF, 0xFEDCBA98, 0x76543210⟩

-- ---------------------------------------------------------------- well-formed source lines (R79)

theorem test_wf_operand_on_format_n : SourceLine.wellFormed ⟨.CLRI, some 0⟩ = false := by decide
theorem test_wf_missing_byte : SourceLine.wellFormed ⟨.PUSHB, none⟩ = false := by decide
theorem test_wf_missing_word : SourceLine.wellFormed ⟨.SETR, none⟩ = false := by decide
theorem test_wf_byte_too_large : SourceLine.wellFormed ⟨.PUSHB, some 256⟩ = false := by decide
theorem test_wf_word_too_large : SourceLine.wellFormed ⟨.WRV0, some 4294967296⟩ = false := by decide
theorem test_wf_accepts : SourceLine.wellFormed ⟨.PUSHB, some 255⟩ = true ∧
    SourceLine.wellFormed ⟨.SETR, some 4294967295⟩ = true ∧ SourceLine.wellFormed ⟨.KEYLD, none⟩ = true := by decide
theorem test_assemble_pushb : SourceLine.assemble ⟨.PUSHB, some 0x54⟩ = some (.pushb 0x54) ∧
    SourceLine.assemble ⟨.PUSHB, some 256⟩ = none := by decide

-- ---------------------------------------------------------------- encodings (R70, R71, R75), each word op then arg

theorem test_decode_none : decode 0x0000000000 = .ok .nop := by decide
theorem test_decode_buffers : decode 0x1000000000 = .ok .clri ∧ decode 0x11000000FF = .ok (.pushb 0xFF) ∧
    decode 0x1201020304 = .ok (.pushw 0x01020304) ∧ decode 0x1300000000 = .ok .clro ∧
    decode 0x1400000000 = .ok .popb ∧ decode 0x1500000000 = .ok .popw := by decide
theorem test_decode_construction : decode 0x2000000000 = .ok .keyld ∧ decode 0x2100000040 = .ok (.setr 64) ∧
    decode 0x2200000000 = .ok .rdr := by decide
theorem test_decode_words : decode 0x3054686520 = .ok (.wrv0 0x54686520) ∧ decode 0x3171756963 = .ok (.wrv1 0x71756963) ∧
    decode 0x3200000000 = .ok .rdv0 ∧ decode 0x3300000000 = .ok .rdv1 := by decide
theorem test_decode_converter : decode 0x4000000000 = .ok .ldblk ∧ decode 0x4100000000 = .ok .stblk := by decide
theorem test_decode_cipher : decode 0x5000000000 = .ok .encr ∧ decode 0x5100000000 = .ok .decr ∧
    decode 0x5200000000 = .ok .enc ∧ decode 0x5300000000 = .ok .dec := by decide
theorem test_decode_status : decode 0x6000000000 = .ok .rdstat ∧ decode 0x6100000000 = .ok .rdbsz ∧
    decode 0x6200000000 = .ok .rdksz := by decide
/-- The illegal words of V1. -/
theorem test_decode_illegal : decode 0x1100000100 = .error .byteArgTooWide ∧ decode 0x2000000001 = .error .argNotZero ∧
    decode 0x5400000000 = .error .unassignedOp ∧ decode 0x6000000001 = .error .argNotZero ∧
    decode 0x6300000000 = .error .unassignedOp ∧ decode 0xFFFFFFFFFF = .error .unassignedOp ∧
    decode 0x0100000000 = .error .unassignedOp := by decide
theorem test_encode_words : encode (.pushb 0x54) = 0x1100000054 ∧ encode (.setr 64) = 0x2100000040 ∧
    encode .dec = 0x5300000000 := by decide
theorem test_decodeTableWord : decodeTableWord 40 0x2100000040 = some (.setr 64) ∧ decodeTableWord 40 0x5400000000 = none := by
  decide
/-- The response words of V1. -/
theorem test_response_words : rspWord .ok 0x41EA3A0A = 0x041EA3A0A ∧ rspWord .invalidBlockLength 0 = 0x400000000 ∧
    rspWord .outputUnderrun 0 = 0x700000000 := by decide

-- ---------------------------------------------------------------- input buffer and key (V2)

theorem test_clri : (coreAfter (execClri (machine { TeaCore.reset with ibuf := List.replicate 16 0, iovf := true }))) =
    some TeaCore.reset := by decide
theorem test_pushb_overflow : coreAfter (execPushb 0x71 (machine { TeaCore.reset with ibuf := List.replicate 16 0 })) =
    some { TeaCore.reset with ibuf := List.replicate 16 0, iovf := true } := by decide
theorem test_pushb : (coreAfter (execPushb 0x71 State.reset)).map TeaCore.ibuf = some [0x71] := by decide
theorem test_pushw : (coreAfter (execPushw 0x71776572 State.reset)).map TeaCore.ibuf = some [0x71, 0x77, 0x65, 0x72] := by decide
theorem test_pushw_overflow : coreAfter (execPushw 0xAABBCCDD (machine { TeaCore.reset with ibuf := List.replicate 14 0 })) =
    some { TeaCore.reset with ibuf := List.replicate 14 0 ++ [0xAA, 0xBB], iovf := true } := by decide
theorem test_keyld : coreAfter (execKeyld (machine { TeaCore.reset with
      ibuf := [0, 1, 2, 3, 4, 5, 6, 7, 8, 9, 10, 11, 12, 13, 14, 15] })) =
    some (keyed ⟨0x00010203, 0x04050607, 0x08090A0B, 0x0C0D0E0F⟩ ⟨0, 0⟩) := by decide
theorem test_keyld_overflow : answers (execKeyld (machine { TeaCore.reset with ibuf := List.replicate 16 0, iovf := true })) =
    some [0x100000000] := by decide

-- ---------------------------------------------------------------- construction, status, constants (V3)

theorem test_setr : (coreAfter (execSetr 4294967295 State.reset)).map TeaCore.rounds = some 0xFFFFFFFF := by decide
theorem test_setr_narrow : answers (setRounds 8 256 State.reset) = some [0x300000000] ∧
    answers (setRounds 8 255 State.reset) = some [0x000000000] := by decide
theorem test_rdr : answers (execRdr State.reset) = some [0x000000020] := by decide
theorem test_rdstat_key_and_block : answers (execRdstat (machine { keyed k2 ⟨0, 0⟩ with ibuf := List.replicate 8 0 })) =
    some [0x000000802] := by decide
theorem test_rdstat_busy : answers (execRdstat (machine (encrypting 2))) = some [0x000000003] ∧
    answers (execRdstat (machine { TeaCore.reset with ibuf := List.replicate 16 0, iovf := true })) = some [0x000001004] ∧
    answers (execRdstat (machine { keyed k2 ⟨0, 0⟩ with obuf := List.replicate 8 0 })) = some [0x000080002] := by decide
theorem test_rdbsz : answers (execRdbsz State.reset) = some [0x000000008] := by decide
theorem test_rdksz : answers (execRdksz State.reset) = some [0x000000010] := by decide
theorem test_nop : nextOf (execNop (machine (keyed kat ⟨1, 2⟩))) =
    some { machine (keyed kat ⟨1, 2⟩) with responses := [0] } := by decide

-- ---------------------------------------------------------------- word path (V4)

theorem test_wrv0 : (coreAfter (execWrv0 0xDEADBEEF State.reset)).map TeaCore.v = some ⟨0xDEADBEEF, 0⟩ := by decide
theorem test_wrv1 : (coreAfter (execWrv1 0xDEADBEEF State.reset)).map TeaCore.v = some ⟨0, 0xDEADBEEF⟩ := by decide
theorem test_rdv0 : answers (execRdv0 (machine (keyed kat ⟨0xDEADBEEF, 7⟩))) = some [0x0DEADBEEF] := by decide
theorem test_rdv1 : answers (execRdv1 (machine (keyed kat ⟨7, 0xDEADBEEF⟩))) = some [0x0DEADBEEF] := by decide
theorem test_encr_no_key : nextOf (execEncr State.reset) = some { State.reset with responses := [0x600000000] } := by decide
theorem test_encr : coreAfter (execEncr (machine { keyed kat ⟨1, 2⟩ with rounds := 4, sum := 9 })) =
    some { keyed kat ⟨1, 2⟩ with rounds := 4, sum := 0, rcnt := 4, phase := .encrypt } := by decide
/-- The initial sums of V4. -/
theorem test_decr_sums : (coreAfter (execDecr (machine { keyed kat ⟨1, 2⟩ with rounds := 64 }))).map TeaCore.sum =
      some 0x8DDE6E40 ∧
    (coreAfter (execDecr (machine { keyed kat ⟨1, 2⟩ with rounds := 4294967295 }))).map TeaCore.sum = some 0x61C88647 := by
  decide
theorem test_decr_no_key : answers (execDecr State.reset) = some [0x600000000] := by decide
/-- The round function at V4's corners: dropped top bits, a logical shift, wrapping additions. -/
theorem test_roundF : roundF 0xFFFFFFFF 0 0 0 = 0x07FFFFF0 ∧ roundF 0x80000000 0 0 0 = 0x84000000 ∧
    roundF 0x12345678 0x9E3779B9 0x01234567 0x89ABCDEF = 0x1E3E0C74 ∧ roundF 0xF0000001 0 0x10 0 = 0xF7800021 := by decide
/-- The encrypt round of V4, with the carry out of `V0`. -/
theorem test_encrypt_round : engineStep { keyed k2 ⟨0xFFFFFFFF, 1⟩ with phase := .encrypt, rcnt := 1, rounds := 1 } =
    some { keyed k2 ⟨0x16BFF121, 0xA92697EC⟩ with phase := .encrypt, rcnt := 0, rounds := 1, sum := 0x9E3779B9 } := by decide
/-- The first decrypt round of V4's four-round trace. -/
theorem test_decrypt_round :
    engineStep { keyed kat ⟨0x265E57D5, 0x382D125C⟩ with phase := .decrypt, rcnt := 4, rounds := 4, sum := 0x78DDE6E4 } =
    some { keyed kat ⟨0x25C0D416, 0x083C5800⟩ with phase := .decrypt, rcnt := 3, rounds := 4, sum := 0xDAA66D2B } := by decide
/-- The finish step stores only for the byte path (R152). -/
theorem test_finish : (engineStep { encrypting 0 with v := ⟨0x01020304, 0xA0B0C0D0⟩ }).map TeaCore.obuf =
      some [0x01, 0x02, 0x03, 0x04, 0xA0, 0xB0, 0xC0, 0xD0] ∧
    (engineStep { encrypting 0 with sto := false, obuf := [0x11, 0x22] }).map TeaCore.obuf = some [0x11, 0x22] := by decide
/-- Four rounds of V4's trace, there and back. -/
theorem test_four_rounds : encryptBlock kat 4 ⟨0x54686520, 0x71756963⟩ = ⟨0x265E57D5, 0x382D125C⟩ ∧
    decryptBlock kat 4 ⟨0x265E57D5, 0x382D125C⟩ = ⟨0x54686520, 0x71756963⟩ := by decide
/-- G1, the published all-zero vector of TEA. -/
theorem test_all_zero_vector : encryptBlock ⟨0, 0, 0, 0⟩ 32 ⟨0, 0⟩ = ⟨0x41EA3A0A, 0x94BAA940⟩ := by decide

-- ---------------------------------------------------------------- converter, output buffer, byte path (V6)

theorem test_ldblk : coreAfter (execLdblk (machine { TeaCore.reset with ibuf := [0, 0, 0, 1, 0x80, 0, 0, 0] })) =
    some { TeaCore.reset with v := ⟨0x00000001, 0x80000000⟩ } := by decide
theorem test_ldblk_length : nextOf (execLdblk (machine { TeaCore.reset with ibuf := List.replicate 7 0 })) =
    some { machine { TeaCore.reset with ibuf := List.replicate 7 0 } with responses := [0x400000000] } := by decide
theorem test_stblk : (coreAfter (execStblk (machine { keyed kat ⟨0x01020304, 0xA0B0C0D0⟩ with obuf := [0xD0] }))).map TeaCore.obuf =
    some [0x01, 0x02, 0x03, 0x04, 0xA0, 0xB0, 0xC0, 0xD0] := by decide
theorem test_clro : coreAfter (execClro (machine { TeaCore.reset with obuf := [1, 2, 3, 4, 5] })) = some TeaCore.reset := by decide
theorem test_popb : nextOf (execPopb (machine { TeaCore.reset with obuf := [0x81, 0x02] })) =
    some { machine { TeaCore.reset with obuf := [0x02] } with responses := [0x000000081] } := by decide
theorem test_popw : nextOf (execPopw (machine { TeaCore.reset with obuf := [0x02, 0x03, 0x04, 0xA0, 0xB0, 0xC0, 0xD0] })) =
    some { machine { TeaCore.reset with obuf := [0xB0, 0xC0, 0xD0] } with responses := [0x0020304A0] } := by decide
theorem test_popw_underrun : nextOf (execPopw (machine { TeaCore.reset with obuf := [0xB0, 0xC0, 0xD0] })) =
    some { machine { TeaCore.reset with obuf := [0xB0, 0xC0, 0xD0] } with responses := [0x700000000] } := by decide
theorem test_popb_underrun : answers (execPopb State.reset) = some [0x700000000] := by decide
/-- `NoKey` comes before the length (R211). -/
theorem test_enc_priority : answers (execEnc (machine { TeaCore.reset with ibuf := [1, 2, 3] })) = some [0x600000000] := by decide
theorem test_enc : coreAfter (execEnc (machine { keyed kat ⟨7, 7⟩ with ibuf := [0x54, 0x68, 0x65, 0x20, 0x71, 0x75, 0x69, 0x63] })) =
    some { keyed kat ⟨0x54686520, 0x71756963⟩ with rcnt := 32, phase := .encrypt, sto := true } := by decide
theorem test_dec : coreAfter (execDec (machine { keyed kat ⟨7, 7⟩ with ibuf := [0x54, 0x68, 0x65, 0x20, 0x71, 0x75, 0x69, 0x63] })) =
    some { keyed kat ⟨0x54686520, 0x71756963⟩ with rcnt := 32, phase := .decrypt, sto := true, sum := 0xC6EF3720 } := by decide
theorem test_dec_length : answers (execDec (machine { keyed kat ⟨7, 7⟩ with ibuf := [1, 2, 3] })) = some [0x400000000] := by decide

-- ---------------------------------------------------------------- one step of the machine

/-- A busy machine accepts `RDSTAT`, and refuses its ill-formed word at once (R73, R123). -/
theorem test_step_status_while_busy :
    (nextOf (step { machine (encrypting 2) with moves := [.present 0x6000000000] })).map State.responses = some [0x000000003] ∧
    (nextOf (step { machine (encrypting 2) with moves := [.present 0x6000000001] })).map State.responses = some [0x500000000] := by
  decide
/-- A busy machine holds every other word, legal or not, while the engine goes on (R73). -/
theorem test_step_holds :
    (nextOf (step { machine (encrypting 2) with moves := [.present 0xFFFFFFFFFF] })).map
      (fun t => (t.port, t.responses, t.core.rcnt)) = some (some 0xFFFFFFFFFF, [], 1) := by decide
/-- Reset wins and drops the held word (R230). -/
theorem test_step_reset :
    nextOf (step { machine (encrypting 2) with port := some 0, moves := [.rst] }) = some State.reset := by decide

-- ================================================================ witnesses of the hypotheses

/-- A machine that has a word on its port and moves to come. -/
def busyMachine (p : Option CmdWord) (ms : List Move) : State := { machine (encrypting 2) with port := p, moves := ms }

def idleMachine (p : Option CmdWord) (ms : List Move) : State := { State.reset with port := p, moves := ms }

theorem witness_ResetInputGivesTheResetStateFromAnyState : (busyMachine (some 0) [.rst]).moves = .rst :: [] := by decide

theorem witness_DecodeAndEncodeAreInverse : decode 0x3054686520 = .ok (.wrv0 0x54686520) := by decide

theorem witness_DecoderAgreesWithTheOpcodeMap : decode 0x1000000000 = .ok .clri ∧
    (⟨.CLRI, 0x1000000000, 0xFFFFFFFFFF⟩ : OpcodeRow) ∈ opcodeMap ∧ (⟨.PUSHB, 0x1100000000, 0xFFFFFFFF00⟩ : OpcodeRow) ∈ opcodeMap := by
  decide

theorem witness_IllegalWordsAreTheThreeCasesAndAnswerCodeFive : ∃ e, decode 0x1100000100 = .error e := ⟨.byteArgTooWide, by decide⟩

theorem witness_StepRunsTheDecodedCommand : decode 0x1000000000 = .ok .clri ∧
    ((idleMachine none [.present 0x1000000000]).core.phase = .idle ∧ (idleMachine none [.present 0x1000000000]).port = none ∧
      (idleMachine none [.present 0x1000000000]).moves = .present 0x1000000000 :: []) ∧
    ((idleMachine (some 0x1000000000) []).core.phase = .idle ∧ (idleMachine (some 0x1000000000) []).port = some 0x1000000000 ∧
      (idleMachine (some 0x1000000000) []).moves = []) ∧
    (idleMachine (some 0x1000000000) [.present 0]).moves = .present 0 :: [] ∧
    (idleMachine (some 0x1000000000) [.engine]).moves = .engine :: [] := by decide

theorem witness_FetchedWordRunsInTheNextStep : decodeTableWord 40 0x1000000000 = some .clri ∧ State.reset.core.phase = .idle ∧
    (busyMachine none []).core.phase ≠ .idle ∧ Instr.clri ≠ .rdstat ∧ decodeTableWord 40 0x6000000000 = some .rdstat := by
  decide

theorem witness_HeldCommandHasNoEffectAndNoResponse : (0xFFFFFFFFFF : CmdWord).extractLsb' 32 8 ≠ 0x60#8 ∧
    ((busyMachine none [.present 0xFFFFFFFFFF]).core.phase ≠ .idle ∧ (busyMachine none [.present 0xFFFFFFFFFF]).port = none ∧
      (busyMachine none [.present 0xFFFFFFFFFF]).moves = .present 0xFFFFFFFFFF :: []) ∧
    ((busyMachine (some 0xFFFFFFFFFF) []).port = some 0xFFFFFFFFFF ∧ (busyMachine (some 0xFFFFFFFFFF) []).moves = []) ∧
    (busyMachine (some 0xFFFFFFFFFF) [.engine]).moves = .engine :: [] ∧
    (busyMachine (some 0xFFFFFFFFFF) [.present 0]).moves = .present 0 :: [] := by decide

theorem witness_BusyMachineOnlyAdvancesOrAnswersStatus : ∃ t, (busyMachine none []).core.phase ≠ .idle ∧
    (∀ ms, (busyMachine none []).moves ≠ .rst :: ms) ∧ step (busyMachine none []) = .next t :=
  ⟨_, by decide, fun _ h => (nomatch h), rfl⟩

theorem witness_StepStopsOnlyOnAHostOutsideTheTable : (∃ ms, (idleMachine none [.outsideTable]).moves = .outsideTable :: ms) ∧
    (∀ ms, (idleMachine none [.rst]).moves ≠ .outsideTable :: ms) := ⟨⟨_, rfl⟩, fun _ h => (nomatch h)⟩

theorem witness_ClearCommandsEmptyTheirBuffer : ∃ t, exec .clri (machine { TeaCore.reset with iovf := true }) = .next t ∧
    (machine { TeaCore.reset with iovf := true }).core.iovf = true ∧ t.core.iovf = false := ⟨_, rfl, rfl, rfl⟩

theorem witness_PushByteAppendsOrSetsOverflow : (machine { TeaCore.reset with ibuf := List.replicate 15 0 }).core.ibuf.length < 16 ∧
    16 ≤ (machine { TeaCore.reset with ibuf := List.replicate 16 0 }).core.ibuf.length ∧
    (0x1100000100 : CmdWord).extractLsb' 32 8 = 0x11#8 ∧ (0x1100000100 : CmdWord).extractLsb' 8 24 ≠ 0#24 := by decide

theorem witness_PushWordAppendsFourBytesMostSignificantFirst :
    (machine { TeaCore.reset with ibuf := List.replicate 16 0 }).core.ibuf.length ≤ 16 := by decide

theorem witness_KeyLoadExpandsSixteenBytesOrRefusesTheLength :
    (machine { TeaCore.reset with ibuf := [0, 1, 2, 3, 4, 5, 6, 7, 8, 9, 10, 11, 12, 13, 14, 15] }).core.iovf = false ∧
    (machine { TeaCore.reset with ibuf := [0, 1, 2, 3, 4, 5, 6, 7, 8, 9, 10, 11, 12, 13, 14, 15] }).core.ibuf =
      [0, 1, 2, 3, 4, 5, 6, 7, 8, 9, 10, 11, 12, 13, 14, 15] ∧
    (machine { TeaCore.reset with ibuf := List.replicate 15 0 }).core.ibuf.length ≠ 16 ∧
    (machine { TeaCore.reset with ibuf := List.replicate 16 0, iovf := true }).core.iovf = true := by decide

theorem witness_SetRoundsWritesTheCountOrRefusesWhatDoesNotFit : 2 ^ 8 ≤ (256 : Word).toNat ∧ (255 : Word).toNat < 2 ^ 8 := by decide

theorem witness_StatusReadReturnsTheFieldsOfTheViewInEveryPhase :
    ((machine { encrypting 2 with ibuf := List.replicate 16 0, obuf := List.replicate 8 0 }).core.ibuf.length ≤ 16 ∧
      (machine { encrypting 2 with ibuf := List.replicate 16 0, obuf := List.replicate 8 0 }).core.obuf.length ≤ 8) ∧
    ((busyMachine none [.present (0x60#8 ++ 0#32)]).port = none ∧
      (busyMachine none [.present (0x60#8 ++ 0#32)]).moves = .present (0x60#8 ++ 0#32) :: []) ∧
    ((1#32 : Word) ≠ 0#32 ∧ (busyMachine none [.present (0x60#8 ++ 1#32)]).port = none ∧
      (busyMachine none [.present (0x60#8 ++ 1#32)]).moves = .present (0x60#8 ++ 1#32) :: []) ∧
    (encrypting 2).phase ≠ .idle := by decide

theorem witness_WordEncryptStartsTheEngineOrAnswersNoKey : (machine (keyed kat ⟨1, 2⟩)).core.keyv = true ∧
    State.reset.core.keyv = false := by decide

theorem witness_WordDecryptStartsTheEngineOrAnswersNoKey : (machine (keyed kat ⟨1, 2⟩)).core.keyv = true ∧
    State.reset.core.keyv = false := by decide

theorem witness_DecryptSumIsTheOldConstantOnlyForThirtyTwoRounds : ∃ t, (machine (keyed kat ⟨1, 2⟩)).core.keyv = true ∧
    exec .decr (machine (keyed kat ⟨1, 2⟩)) = .next t ∧ t.core.sum = 0xC6EF3720#32 := ⟨_, rfl, rfl, by decide⟩

theorem witness_LoadBlockConvertsEightBytesOrRefusesTheLength :
    ((machine { TeaCore.reset with ibuf := [0, 1, 2, 3, 4, 5, 6, 7] }).core.ibuf = [0, 1, 2, 3, 4, 5, 6, 7] ∧
      (machine { TeaCore.reset with ibuf := [0, 1, 2, 3, 4, 5, 6, 7] }).core.iovf = false) ∧
    (machine { TeaCore.reset with ibuf := List.replicate 9 0 }).core.ibuf.length ≠ 8 ∧
    (machine { TeaCore.reset with ibuf := List.replicate 8 0, iovf := true }).core.iovf = true := by decide

theorem witness_PopByteRemovesTheOldestByteOrUnderruns : (machine { TeaCore.reset with obuf := [0x81] }).core.obuf = 0x81 :: [] ∧
    State.reset.core.obuf.length < 1 := by decide

theorem witness_PopWordRemovesFourBytesOrUnderruns :
    (machine { TeaCore.reset with obuf := [1, 2, 3, 4] }).core.obuf = 1 :: 2 :: 3 :: 4 :: [] ∧
    (machine { TeaCore.reset with obuf := [1, 2, 3] }).core.obuf.length < 4 := by decide

theorem witness_ByteEncryptLoadsTheBlockAndStartsTheEngine :
    ((machine { keyed kat ⟨7, 7⟩ with ibuf := [0, 1, 2, 3, 4, 5, 6, 7] }).core.keyv = true ∧
      (machine { keyed kat ⟨7, 7⟩ with ibuf := [0, 1, 2, 3, 4, 5, 6, 7] }).core.ibuf = [0, 1, 2, 3, 4, 5, 6, 7] ∧
      (machine { keyed kat ⟨7, 7⟩ with ibuf := [0, 1, 2, 3, 4, 5, 6, 7] }).core.iovf = false) ∧
    State.reset.core.keyv = false ∧
    ((machine { keyed kat ⟨7, 7⟩ with ibuf := List.replicate 7 0 }).core.keyv = true ∧
      (machine { keyed kat ⟨7, 7⟩ with ibuf := List.replicate 7 0 }).core.ibuf.length ≠ 8) ∧
    (machine { keyed kat ⟨7, 7⟩ with ibuf := List.replicate 16 0, iovf := true }).core.iovf = true := by decide

theorem witness_ByteDecryptLoadsTheBlockAndStartsTheEngine :
    ((machine { keyed k2 ⟨7, 7⟩ with ibuf := [0, 1, 2, 3, 4, 5, 6, 7] }).core.keyv = true ∧
      (machine { keyed k2 ⟨7, 7⟩ with ibuf := [0, 1, 2, 3, 4, 5, 6, 7] }).core.ibuf = [0, 1, 2, 3, 4, 5, 6, 7] ∧
      (machine { keyed k2 ⟨7, 7⟩ with ibuf := [0, 1, 2, 3, 4, 5, 6, 7] }).core.iovf = false) ∧
    State.reset.core.keyv = false ∧
    ((machine { keyed k2 ⟨7, 7⟩ with ibuf := List.replicate 9 0 }).core.keyv = true ∧
      (machine { keyed k2 ⟨7, 7⟩ with ibuf := List.replicate 9 0 }).core.ibuf.length ≠ 8) ∧
    (machine { keyed k2 ⟨7, 7⟩ with ibuf := List.replicate 16 0, iovf := true }).core.iovf = true := by decide

theorem witness_ByteAndWordConversionsAreBijections :
    kx [0, 1, 2, 3, 4, 5, 6, 7, 8, 9, 10, 11, 12, 13, 14, 15] = some ⟨0x00010203, 0x04050607, 0x08090A0B, 0x0C0D0E0F⟩ ∧
    bytesToBlock [0, 1, 2, 3, 4, 5, 6, 7] = some ⟨0x00010203, 0x04050607⟩ := by decide

theorem witness_WordTransfersAreFourByteTransfers :
    (∃ t, exec (.pushw 0x01020304) (machine { TeaCore.reset with ibuf := List.replicate 14 0 }) = .next t) ∧
    (∃ t, exec .popw (machine { TeaCore.reset with obuf := [1, 2, 3, 4] }) = .next t ∧
      t.responses = (machine { TeaCore.reset with obuf := [1, 2, 3, 4] }).responses ++ [0#4 ++ 0x01020304#32]) :=
  ⟨⟨_, rfl⟩, ⟨_, rfl, by decide⟩⟩

theorem witness_AnErrorChangesNothing : ∃ t, acceptWord 0x5200000000 State.reset = .next t ∧
    t.responses = State.reset.responses ++ [0x600000000] ∧ (0x600000000 : RspWord).extractLsb' 32 4 ≠ 0#4 :=
  ⟨_, rfl, by decide, by decide⟩

theorem witness_CommandsWithoutErrorsAlwaysAnswerOk : (Instr.setr 0).mnemonic ∈ [Mnemonic.NOP, .CLRI, .PUSHB, .PUSHW, .CLRO, .RDR,
    .WRV0, .WRV1, .RDV0, .RDV1, .STBLK, .RDSTAT, .RDBSZ, .RDKSZ, .SETR] := by decide

theorem witness_OnlyKeyLoadWritesTheKey : ∃ t, exec .clri (machine (keyed kat ⟨1, 2⟩)) = .next t ∧ Instr.clri ≠ .keyld ∧
    (machine (keyed kat ⟨1, 2⟩)).core.keyv = true := ⟨_, rfl, by decide, rfl⟩

theorem witness_NoCommandRevealsTheKeyOrTheInputBytes : ∃ t, exec .rdstat (machine { keyed kat ⟨1, 2⟩ with ibuf := [1, 2] }) = .next t ∧
    [3, 4].length = (machine { keyed kat ⟨1, 2⟩ with ibuf := [1, 2] }).core.ibuf.length := ⟨_, rfl, rfl⟩

theorem witness_IdempotentWritesMayBeRepeated : ∃ t u, (Instr.wrv0 7).mnemonic ∈ [Mnemonic.WRV0, .WRV1, .SETR, .CLRI, .CLRO, .STBLK] ∧
    exec (.wrv0 7) State.reset = .next t ∧ exec (.wrv0 7) t = .next u := ⟨_, _, by decide, rfl, rfl⟩

theorem witness_EncryptRoundStepIsTheWrittenOutRound : ∃ s' v0' v1' : Word, (encrypting 1).phase = .encrypt ∧ (encrypting 1).rcnt ≠ 0#32 ∧
    s' = (encrypting 1).sum + 0x9E3779B9#32 ∧
    v0' = (encrypting 1).v.v0 + ((((encrypting 1).v.v1 <<< 4) + (encrypting 1).key.k0) ^^^ ((encrypting 1).v.v1 + s') ^^^
      (((encrypting 1).v.v1 >>> 5) + (encrypting 1).key.k1)) ∧
    v1' = (encrypting 1).v.v1 + (((v0' <<< 4) + (encrypting 1).key.k2) ^^^ (v0' + s') ^^^ ((v0' >>> 5) + (encrypting 1).key.k3)) :=
  ⟨_, _, _, by decide, by decide, rfl, rfl, rfl⟩

/-- A running decryption with one round to go. -/
def decrypting : TeaCore := { encrypting 1 with phase := .decrypt, sum := 0x9E3779B9 }

theorem witness_DecryptRoundStepIsTheWrittenOutRound : ∃ v0' v1' : Word, decrypting.phase = .decrypt ∧ decrypting.rcnt ≠ 0#32 ∧
    v1' = decrypting.v.v1 - (((decrypting.v.v0 <<< 4) + decrypting.key.k2) ^^^ (decrypting.v.v0 + decrypting.sum) ^^^
      ((decrypting.v.v0 >>> 5) + decrypting.key.k3)) ∧
    v0' = decrypting.v.v0 - (((v1' <<< 4) + decrypting.key.k0) ^^^ (v1' + decrypting.sum) ^^^ ((v1' >>> 5) + decrypting.key.k1)) :=
  ⟨_, _, by decide, by decide, rfl, rfl⟩

theorem witness_FinishStepStoresOnlyForTheBytePath : TeaCore.reset.phase = .idle ∧ (encrypting 0).phase ≠ .idle ∧
    (encrypting 0).rcnt = 0#32 := by decide

theorem witness_RunningOperationKeepsKeyRoundsAndInput : ∃ t, (busyMachine none [.engine]).core.phase ≠ .idle ∧
    (∀ ms, (busyMachine none [.engine]).moves ≠ .rst :: ms) ∧ step (busyMachine none [.engine]) = .next t :=
  ⟨_, by decide, fun _ h => (nomatch h), rfl⟩

theorem witness_ZeroRoundsIsTheIdentity : ∃ t u, (machine { keyed kat ⟨1, 2⟩ with rounds := 0 }).core.keyv = true ∧
    (machine { keyed kat ⟨1, 2⟩ with rounds := 0 }).core.rounds = 0#32 ∧
    exec .encr (machine { keyed kat ⟨1, 2⟩ with rounds := 0 }) = .next t ∧
    exec .decr (machine { keyed kat ⟨1, 2⟩ with rounds := 0 }) = .next u := ⟨_, _, rfl, rfl, rfl, rfl⟩

/-- An idle machine with a key, two rounds and a block in its input buffer. -/
def ready (ms : List Move) : State :=
  { machine { keyed kat ⟨1, 2⟩ with rounds := 2, ibuf := [0, 1, 2, 3, 4, 5, 6, 7] } with moves := ms }

theorem witness_EncryptOperationComputesEncryptBlock : ∃ t u, (ready []).core.phase = .idle ∧ (ready []).port = none ∧
    (ready []).moves = [] ∧ exec .encr (ready []) = .next t ∧ t.core.phase = .encrypt ∧ exec .enc (ready []) = .next u ∧
    u.core.phase = .encrypt := ⟨_, _, rfl, rfl, rfl, rfl, rfl, rfl, rfl⟩

theorem witness_DecryptOperationComputesDecryptBlock : (0 < 1) ∧ ∃ t u, (ready []).core.phase = .idle ∧ (ready []).port = none ∧
    (ready []).moves = [] ∧ exec .decr (ready []) = .next t ∧ t.core.phase = .decrypt ∧ exec .dec (ready []) = .next u ∧
    u.core.phase = .decrypt := ⟨by decide, _, _, rfl, rfl, rfl, rfl, rfl, rfl, rfl⟩

theorem witness_OperationEndsAfterItsRoundsAndTheFinishStep : (busyMachine (some 0) []).core.phase ≠ .idle ∧
    (0 : CmdWord).extractLsb' 32 8 ≠ 0x60#8 ∧ (busyMachine (some 0) []).port = some 0 ∧ (busyMachine (some 0) []).moves = [] ∧
    2 ≤ (busyMachine (some 0) []).core.rcnt.toNat := by decide

/-- A host that reads the status between two engine steps. -/
def statusBetween : State := busyMachine none [.engine, .present 0x6000000000, .engine]

theorem witness_EveryInterleavingOfStatusReadsEndsInTheSameState : ∃ c, statusBetween.core.phase ≠ .idle ∧ statusBetween.port = none ∧
    (∀ m ∈ statusBetween.moves, m = .engine ∨ ∃ w : CmdWord, m = .present w ∧ w.extractLsb' 32 8 = 0x60#8) ∧
    engineSteps (statusBetween.core.rcnt.toNat + 1) statusBetween.core = some c := by
  refine ⟨_, by decide, rfl, fun m hm => ?_, rfl⟩
  simp only [statusBetween, busyMachine, List.mem_cons, List.not_mem_nil, or_false] at hm
  obtain rfl | rfl | rfl := hm
  · exact .inl rfl
  · exact .inr ⟨_, rfl, by decide⟩
  · exact .inl rfl

theorem witness_WordPathProgramAnswersTheEncryptedBlock :
    (ready (program [.wrv0 1, .wrv1 2, .encr, .rdv0, .rdv1])).core.phase = .idle ∧
    (ready (program [.wrv0 1, .wrv1 2, .encr, .rdv0, .rdv1])).core.keyv = true ∧
    (ready (program [.wrv0 1, .wrv1 2, .encr, .rdv0, .rdv1])).port = none ∧
    (ready (program [.wrv0 1, .wrv1 2, .encr, .rdv0, .rdv1])).moves = program [.wrv0 1, .wrv1 2, .encr, .rdv0, .rdv1] := by decide

/-- The eight bytes of a block, and the program of one block on the byte path. -/
def eight : Vector Byte 8 := #v[0, 1, 2, 3, 4, 5, 6, 7]

def bytePath (start : Instr) : List Move := program (.clri :: eight.toList.map .pushb ++ [start] ++ List.replicate 8 .popb)

/-- Both branches: `ENC` with `EncryptBlock`, and `DEC` with `DecryptBlock`. -/
theorem witness_BytePathProgramTakesRoundsPlusNineteenSteps : ∃ blk,
    (((Instr.enc = .enc ∧ encryptBlock = encryptBlock) ∨ (Instr.enc = .dec ∧ encryptBlock = decryptBlock)) ∧
      (ready (bytePath .enc)).core.phase = .idle ∧ (ready (bytePath .enc)).core.keyv = true ∧
      (ready (bytePath .enc)).port = none ∧ bytesToBlock eight.toList = some blk ∧
      (ready (bytePath .enc)).moves = program (.clri :: eight.toList.map .pushb ++ [.enc] ++ List.replicate 8 .popb)) ∧
    (((Instr.dec = .enc ∧ decryptBlock = encryptBlock) ∨ (Instr.dec = .dec ∧ decryptBlock = decryptBlock)) ∧
      (ready (bytePath .dec)).core.phase = .idle ∧ (ready (bytePath .dec)).core.keyv = true ∧
      (ready (bytePath .dec)).port = none ∧ bytesToBlock eight.toList = some blk ∧
      (ready (bytePath .dec)).moves = program (.clri :: eight.toList.map .pushb ++ [.dec] ++ List.replicate 8 .popb)) :=
  ⟨_, ⟨.inl ⟨rfl, rfl⟩, rfl, rfl, rfl, rfl, rfl⟩, .inr ⟨rfl, rfl⟩, rfl, rfl, rfl, rfl, rfl⟩

theorem witness_FusedAndUnfusedFormsAgree : (∃ blk, (ready []).core.phase = .idle ∧ (ready []).core.keyv = true ∧
    (ready []).core.iovf = false ∧ (ready []).port = none ∧ bytesToBlock (ready []).core.ibuf = some blk) ∧
    (State.reset.core.keyv = false ∧ State.reset.core.ibuf.length ≠ 8) :=
  ⟨⟨_, rfl, rfl, rfl, rfl, rfl⟩, rfl, by decide⟩

/-- Both branches: `ENC` and then `DEC`, and `DEC` and then `ENC`. -/
theorem witness_BytePathRoundTripRestoresTheBlock :
    ((Instr.enc = .enc ∧ Instr.dec = .dec) ∨ (Instr.enc = .dec ∧ Instr.dec = .enc)) ∧
    ((Instr.dec = .enc ∧ Instr.enc = .dec) ∨ (Instr.dec = .dec ∧ Instr.enc = .enc)) ∧ (ready []).core.phase = .idle ∧
    (ready []).core.keyv = true ∧ (ready []).core.iovf = false ∧ (ready []).port = none ∧
    (ready []).core.ibuf = [0, 1, 2, 3, 4, 5, 6, 7] ∧ [0, 1, 2, 3, 4, 5, 6, 7].length = 8 := by decide

/-- A key load from `n` pushed bytes. -/
def pushBytes (n : Nat) : List Move := program (.clri :: (List.replicate n 0x55#8).map .pushb ++ [.keyld])

theorem witness_KeyLoadSucceedsExactlyForSixteenPushedBytes : (idleMachine none (pushBytes 16)).core.phase = .idle ∧
    (idleMachine none (pushBytes 16)).port = none ∧
    (idleMachine none (pushBytes 16)).moves = program (.clri :: (List.replicate 16 0x55#8).map .pushb ++ [.keyld]) ∧
    (List.replicate 16 0x55#8).length = 16 ∧
    (idleMachine none (pushBytes 17)).moves = program (.clri :: (List.replicate 17 0x55#8).map .pushb ++ [.keyld]) ∧
    (List.replicate 17 0x55#8).length ≠ 16 := ⟨rfl, rfl, rfl, rfl, rfl, by decide⟩

/-- The word form of a key load. -/
def pushWords (ws : List Word) : List Move := program (.clri :: ws.map .pushw ++ [.keyld])

theorem witness_WordKeyIsExactlyFourPushedWords : (idleMachine none (pushWords [1, 2, 3, 4])).core.phase = .idle ∧
    (idleMachine none (pushWords [1, 2, 3, 4])).port = none ∧
    (idleMachine none (pushWords [1, 2, 3, 4])).moves = program (.clri :: [1, 2, 3, 4].map .pushw ++ [.keyld]) ∧
    (idleMachine none (pushWords [1, 2, 3, 4, 5])).moves = program (.clri :: [1, 2, 3, 4, 5].map .pushw ++ [.keyld]) ∧
    [1, 2, 3, 4, 5].length ≠ 4 := ⟨rfl, rfl, rfl, rfl, by decide⟩

/-- A running encryption has the invariants, so they are not met at reset only. -/
theorem witness_EveryStepKeepsTheInvariants : ∃ t, (busyMachine none []).core.Inv ∧ step (busyMachine none []) = .next t :=
  ⟨_, ⟨by decide, by decide, by decide, by decide, by decide, by decide, by decide, by decide, by decide⟩, rfl⟩

/-- A state that one step reaches: the host has pushed a byte. -/
theorem witness_EveryReachableStateHasTheInvariants : ∃ t, run 1 (State.withMoves [.present 0x1100000071]) = .next t ∧
    t.core.ibuf = [0x71] ∧ Reachable t := ⟨_, rfl, by decide, [.present 0x1100000071], 1, rfl⟩

theorem witness_EveryStepKeepsTheBuffersWithinTheirCapacities : ∃ t,
    Memory.wf (machine { encrypting 0 with ibuf := List.replicate 16 0, obuf := List.replicate 8 0 }).core = true ∧
    step (machine { encrypting 0 with ibuf := List.replicate 16 0, obuf := List.replicate 8 0 }) = .next t :=
  ⟨_, by decide, rfl⟩

end Sys2Proof.Tests.Slice0
end

section
/-! PROOFS. The family 00_scope.md: programs of the host on the word path, and the round function on natural numbers. -/

namespace Sys2Proof.Machine

-- ---------------------------------------------------------------- programs of the host

/-- Every command survives encoding and decoding (R78): the family `Laws.EncodeThenDecode`, assembled. -/
theorem decode_encode (i : Instr) : decode (encode i) = .ok i := by
  cases i with
  | nop => exact Laws.EncodeThenDecode.nop
  | clri => exact Laws.EncodeThenDecode.clri
  | pushb b => exact Laws.EncodeThenDecode.pushb b
  | pushw w => exact Laws.EncodeThenDecode.pushw w
  | clro => exact Laws.EncodeThenDecode.clro
  | popb => exact Laws.EncodeThenDecode.popb
  | popw => exact Laws.EncodeThenDecode.popw
  | keyld => exact Laws.EncodeThenDecode.keyld
  | setr n => exact Laws.EncodeThenDecode.setr n
  | rdr => exact Laws.EncodeThenDecode.rdr
  | wrv0 w => exact Laws.EncodeThenDecode.wrv0 w
  | wrv1 w => exact Laws.EncodeThenDecode.wrv1 w
  | rdv0 => exact Laws.EncodeThenDecode.rdv0
  | rdv1 => exact Laws.EncodeThenDecode.rdv1
  | ldblk => exact Laws.EncodeThenDecode.ldblk
  | stblk => exact Laws.EncodeThenDecode.stblk
  | encr => exact Laws.EncodeThenDecode.encr
  | decr => exact Laws.EncodeThenDecode.decr
  | enc => exact Laws.EncodeThenDecode.enc
  | dec => exact Laws.EncodeThenDecode.dec
  | rdstat => exact Laws.EncodeThenDecode.rdstat
  | rdbsz => exact Laws.EncodeThenDecode.rdbsz
  | rdksz => exact Laws.EncodeThenDecode.rdksz

/-- A machine with nothing on its port, whose host has still to issue the commands `is`. -/
def State.issuing (c : TeaCore) (is : List Instr) (r : List RspWord) : State :=
  { core := c, port := none, moves := program is, responses := r }

/-- The machine of a host with a program, as the obligations describe it, is an issuing one. -/
theorem State.eq_issuing {s : State} {is : List Instr} (hp : s.port = none) (hm : s.moves = program is) :
    s = State.issuing s.core is s.responses := by
  rw [State.issuing, ← hp, ← hm]

section
variable {c d e : TeaCore} {i j : Instr} {is : List Instr} {r r' : List RspWord}

/-- An idle machine spends one step on the first command of the program (R73). -/
theorem run_issuing_idle (n : Nat) (hi : c.phase = .idle)
    (h : exec i (State.issuing c is r) = .next (State.issuing d is r')) :
    run (n + 1) (State.issuing c (i :: is) r) = run n (State.issuing d is r') :=
  run_succ n _ _ ((step_program hi rfl rfl (decode_encode i)).trans h)

/-- A command `i` that starts an operation of `n` rounds and the command `j` after it take `n + 3` steps: `j` is held
until the engine is idle, and is then accepted (R73, R245). -/
theorem run_issuing_start {n : Nat} (hi : c.phase = .idle) (hj : opField (encode j) ≠ 0x60#8)
    (start : exec i (State.issuing c (j :: is) r) = .next (State.issuing d (j :: is) r'))
    (engine : engineSteps (n + 1) d = some e) (he : e.phase = .idle) {t : State}
    (next : exec j (State.issuing e is r') = .next t) :
    run (n + 3) (State.issuing c (i :: j :: is) r) = .next t := by
  rw [run_issuing_idle (n + 2) hi start]
  exact run_program_busy rfl rfl (onlyPresents_program is) hj (decode_encode j) engine he next

end

-- ---------------------------------------------------------------- the word-path commands in a program

section
variable (c : TeaCore) (is : List Instr) (r : List RspWord)

theorem exec_wrv0_issuing (w : Word) :
    exec (.wrv0 w) (State.issuing c is r) =
      .next (State.issuing { c with v := { v0 := w, v1 := c.v.v1 } } is (r ++ [rspWord .ok 0#32])) := rfl

theorem exec_wrv1_issuing (w : Word) :
    exec (.wrv1 w) (State.issuing c is r) =
      .next (State.issuing { c with v := { v0 := c.v.v0, v1 := w } } is (r ++ [rspWord .ok 0#32])) := rfl

theorem exec_rdv0_issuing :
    exec .rdv0 (State.issuing c is r) = .next (State.issuing c is (r ++ [rspWord .ok c.v.v0])) := rfl

theorem exec_rdv1_issuing :
    exec .rdv1 (State.issuing c is r) = .next (State.issuing c is (r ++ [rspWord .ok c.v.v1])) := rfl

theorem exec_encr_issuing (h : c.keyv = true) :
    exec .encr (State.issuing c is r) =
      .next (State.issuing (startEncrypt false c) is (r ++ [rspWord .ok 0#32])) := if_pos h

end

/-- TEA-CORE after a whole word-path encryption of the block in `V` (R153). -/
def TeaCore.encrypted (c : TeaCore) : TeaCore :=
  { c with
    v := encryptBlock c.key c.rounds.toNat c.v, sum := Config.delta * c.rounds, rcnt := 0#32, phase := .idle,
    sto := false }

/-- The engine takes a started word-path encryption to `TeaCore.encrypted`. -/
theorem engineSteps_encrypted (c : TeaCore) :
    engineSteps (c.rounds.toNat + 1) (startEncrypt false c) = some c.encrypted :=
  engineSteps_encrypt_all c false

/-- `WRV0` and `WRV1` take a step each and leave the written block in `V` (R142, R143). -/
theorem run_issuing_wrv0_wrv1 (n : Nat) {c : TeaCore} (hi : c.phase = .idle) (a b : Word) (is : List Instr)
    (r : List RspWord) :
    run (n + 2) (State.issuing c (.wrv0 a :: .wrv1 b :: is) r) =
      run n (State.issuing { c with v := { v0 := a, v1 := b } } is (r ++ [rspWord .ok 0#32, rspWord .ok 0#32])) := by
  rw [run_issuing_idle (n + 1) hi (exec_wrv0_issuing c _ r a),
    run_issuing_idle (c := { c with v := { v0 := a, v1 := c.v.v1 } }) n hi (exec_wrv1_issuing _ is _ b),
    List.append_assoc]
  rfl

/-- `ENCR`, `RDV0`, `RDV1` take `ROUNDS + 4` steps, `ROUNDS + 3` of them for `ENCR` and the `RDV0` held behind it, and the two
reads answer the encrypted block (R240, R245). -/
theorem run_issuing_encr_rdv0_rdv1 {c : TeaCore} (hi : c.phase = .idle) (hk : c.keyv = true) (r : List RspWord) :
    run (c.rounds.toNat + 4) (State.issuing c [.encr, .rdv0, .rdv1] r) =
      .next (State.issuing c.encrypted []
        (r ++ [rspWord .ok 0#32, rspWord .ok c.encrypted.v.v0, rspWord .ok c.encrypted.v.v1])) := by
  have first := run_issuing_start hi (by decide) (exec_encr_issuing c _ r hk) (engineSteps_encrypted c) rfl
    (exec_rdv0_issuing c.encrypted [.rdv1] _)
  rw [run_add first 1, run_issuing_idle 0 rfl (exec_rdv1_issuing c.encrypted _ _), run, List.append_assoc,
    List.append_assoc]
  rfl

/-- Settles O50: two steps of `run_issuing_wrv0_wrv1`, then the `ROUNDS + 4` of `run_issuing_encr_rdv0_rdv1`. -/
theorem wordPathProgramAnswersTheEncryptedBlock : Obligations.WordPathProgramAnswersTheEncryptedBlock := by
  intro s a b hi hk hp hm
  have ends := calc run (s.core.rounds.toNat + 6) s
    _ = run (s.core.rounds.toNat + 6) (State.issuing s.core [.wrv0 a, .wrv1 b, .encr, .rdv0, .rdv1] s.responses) :=
      congrArg (run _) (State.eq_issuing hp hm)
    _ = run (s.core.rounds.toNat + 4) (State.issuing { s.core with v := { v0 := a, v1 := b } } [.encr, .rdv0, .rdv1]
          (s.responses ++ [rspWord .ok 0#32, rspWord .ok 0#32])) := run_issuing_wrv0_wrv1 _ hi a b _ _
    _ = _ := run_issuing_encr_rdv0_rdv1 (c := { s.core with v := { v0 := a, v1 := b } }) hi hk _
  exact ⟨_, ends, List.append_assoc _ _ _, rfl, rfl, rfl⟩

-- ---------------------------------------------------------------- the round function

/-- Settles O39: each operation of `F` on words is the one on natural numbers, reduced modulo 2^32. -/
theorem roundFunctionIsTheModularFormula : Obligations.RoundFunctionIsTheModularFormula := by
  intro v s ka kb
  simp only [roundF, Config.shlAmt, Config.shrAmt, BitVec.toNat_xor, BitVec.toNat_add, BitVec.toNat_shiftLeft,
    BitVec.toNat_ushiftRight, Nat.shiftLeft_eq, Nat.shiftRight_eq_div_pow, Nat.reducePow]

end Sys2Proof.Machine
end

section
/-! PROOFS. The family 10_state.md: what a command and a step can do to the state of R20, and the invariants of R37. -/

namespace Sys2Proof.Machine

variable {c d : TeaCore} {i : Instr} {s t : State}

-- ---------------------------------------------------------------- what a command does to the state of R20

/-- `Effect c i d`: the command `i` takes the TEA-CORE state `c` to `d`, under the guard its rule gives it. Every command may
leave the state as it was: it reads, or it answers an error (R203). -/
inductive Effect (c : TeaCore) : Instr → TeaCore → Prop where
  | unchanged (i : Instr) : Effect c i c
  | clri : Effect c .clri { c with ibuf := [], iovf := false }
  | pushb (b : Byte) : Effect c (.pushb b) (push b c)
  | pushw (w : Word) : Effect c (.pushw w) (pushWord w c)
  | clro : Effect c .clro { c with obuf := [] }
  | popb : Effect c .popb (dropOut 1 c)
  | popw : Effect c .popw (dropOut 4 c)
  | keyld (k : Key) (h : keyIn c = some k) : Effect c .keyld { c with key := k, keyv := true, ibuf := [] }
  | setr (n : Word) : Effect c (.setr n) { c with rounds := n }
  | wrv0 (w : Word) : Effect c (.wrv0 w) { c with v := { c.v with v0 := w } }
  | wrv1 (w : Word) : Effect c (.wrv1 w) { c with v := { c.v with v1 := w } }
  | ldblk (b : Block) (h : blockIn c = some b) : Effect c .ldblk (loadBlock b c)
  | stblk : Effect c .stblk (fill c)
  | encr (k : c.keyv = true) : Effect c .encr (startEncrypt false c)
  | decr (k : c.keyv = true) : Effect c .decr (startDecrypt false c)
  | enc (k : c.keyv = true) (b : Block) (h : blockIn c = some b) :
    Effect c .enc (startEncrypt true (loadBlock b c))
  | dec (k : c.keyv = true) (b : Block) (h : blockIn c = some b) :
    Effect c .dec (startDecrypt true (loadBlock b c))

/-- The effect of each command on the state of R20 is the one `Effect` gives it. -/
theorem exec_effect (h : exec i s = .next t) : Effect s.core i t.core := by
  cases i with
  | nop | rdr | rdv0 | rdv1 | rdstat | rdbsz | rdksz => cases h; exact .unchanged _
  | clri => cases h; exact .clri
  | pushb b => cases h; exact .pushb b
  | pushw w => cases h; exact .pushw w
  | clro => cases h; exact .clro
  | popb =>
    simp only [exec, execPopb] at h
    split at h <;> cases h
    · exact .unchanged _
    · exact .popb
  | popw =>
    simp only [exec, execPopw] at h
    split at h <;> cases h
    · exact .unchanged _
    · exact .popw
  | keyld =>
    simp only [exec, execKeyld] at h
    split at h <;> cases h
    · exact .unchanged _
    · next k hk => exact .keyld k hk
  | setr n =>
    simp only [exec, execSetr, setRounds_rcw] at h
    cases h
    exact .setr n
  | wrv0 w => cases h; exact .wrv0 w
  | wrv1 w => cases h; exact .wrv1 w
  | ldblk =>
    simp only [exec, execLdblk] at h
    split at h <;> cases h
    · exact .unchanged _
    · next b hb => exact .ldblk b hb
  | stblk => cases h; exact .stblk
  | encr =>
    simp only [exec, execEncr] at h
    split at h <;> cases h
    · next hk => exact .encr hk
    · exact .unchanged _
  | decr =>
    simp only [exec, execDecr] at h
    split at h <;> cases h
    · next hk => exact .decr hk
    · exact .unchanged _
  | enc =>
    simp only [exec, execEnc] at h
    split at h
    · next hk =>
      split at h <;> cases h
      · exact .unchanged _
      · next b hb => exact .enc hk b hb
    · cases h; exact .unchanged _
  | dec =>
    simp only [exec, execDec] at h
    split at h
    · next hk =>
      split at h <;> cases h
      · exact .unchanged _
      · next b hb => exact .dec hk b hb
    · cases h; exact .unchanged _

/-- `PUSHW` touches the input buffer and its overflow flag only. -/
theorem pushWord_frame (w : Word) (c : TeaCore) :
    pushWord w c = { c with ibuf := (pushWord w c).ibuf, iovf := (pushWord w c).iovf } :=
  foldl_push_frame (bytesBe w) c

-- ---------------------------------------------------------------- the key

/-- A command other than `KEYLD` leaves the key registers and `KEYV` alone (R21, R24). -/
theorem Effect.key_of_ne_keyld (h : Effect c i d) (hi : i ≠ .keyld) : d.key = c.key ∧ d.keyv = c.keyv := by
  cases h with
  | keyld => exact absurd rfl hi
  | pushb b => rw [push_frame b c]; exact ⟨rfl, rfl⟩
  | pushw w => rw [pushWord_frame w c]; exact ⟨rfl, rfl⟩
  | _ => exact ⟨rfl, rfl⟩

/-- No command clears `KEYV` (R24). -/
theorem Effect.keyv (h : Effect c i d) (hk : c.keyv = true) : d.keyv = true := by
  by_cases hi : i = .keyld
  · subst hi
    cases h with
    | unchanged => exact hk
    | keyld => rfl
  · exact (h.key_of_ne_keyld hi).2.trans hk

/-- Settles O36, by the effect of each command. -/
theorem onlyKeyLoadWritesTheKey : Obligations.OnlyKeyLoadWritesTheKey :=
  fun _ _ _ h => ⟨(exec_effect h).key_of_ne_keyld, (exec_effect h).keyv⟩

-- ---------------------------------------------------------------- what a step does to the state of R20

/-- A busy engine accepts only words of `RDSTAT`'s opcode, and those leave TEA-CORE alone (R73, R123). -/
theorem acceptWord_core {w : CmdWord} (ha : accepts s.core.phase w = true) (h : acceptWord w s = .next t) :
    t.core = s.core ∨ (s.core.phase = .idle ∧ ∃ i, Effect s.core i t.core) := by
  unfold acceptWord at h
  split at h
  · next i hd =>
    obtain hop | hidle := accepts_eq.1 ha
    · rw [← opField_append_argField w, hop, decode_op_rdstat, decodeN_eq_ok] at hd
      obtain ⟨_, rfl⟩ := hd
      cases h
      exact .inl rfl
    · exact .inr ⟨hidle, i, exec_effect h⟩
  · cases h
    exact .inl rfl

/-- A step leaves TEA-CORE as it was, resets it, takes the enabled engine step, or runs a command while the engine is idle. -/
theorem step_core_cases (h : step s = .next t) :
    t.core = s.core ∨ t.core = TeaCore.reset ∨ engineStep s.core = some t.core ∨
      (s.core.phase = .idle ∧ ∃ i, Effect s.core i t.core) := by
  obtain ⟨_, _, e⟩ | ⟨_, _, e⟩ | ⟨u, hu, _, e | ⟨w, ha, e⟩⟩ := step_cases s <;> rw [e] at h
  · cases h
  · cases h
    exact .inr (.inl rfl)
  · cases h
    rw [← hu]
    cases he : engineStep u.core with
    | none => exact .inl (by simp only [engineTurn, he])
    | some d => exact .inr (.inr (.inl (by rw [engineTurn_of_some he, State.withCore_core])))
  · rw [← hu]
    exact (acceptWord_core (s := { u with port := none }) ha h).imp id fun hc => .inr (.inr hc)

/-- A property of TEA-CORE that reset has, and that every engine step and every command of an idle machine keeps, is kept by
every step. -/
theorem step_keeps {P : TeaCore → Prop} (reset : P TeaCore.reset)
    (engine : ∀ {c d}, P c → engineStep c = some d → P d)
    (command : ∀ {c i d}, P c → c.phase = .idle → Effect c i d → P d)
    (hs : P s.core) (h : step s = .next t) : P t.core := by
  obtain e | e | e | ⟨hidle, _, e⟩ := step_core_cases h
  · rwa [e]
  · rwa [e]
  · exact engine hs e
  · exact command hs hidle e

/-- What every step keeps, every run keeps. -/
theorem run_keeps {P : TeaCore → Prop} (keep : ∀ s t : State, P s.core → step s = .next t → P t.core) {n : Nat}
    (hs : P s.core) (h : run n s = .next t) : P t.core := by
  induction n generalizing s with
  | zero => cases h; exact hs
  | succ n ih =>
    simp only [run] at h
    split at h
    · next u hu => exact ih (keep s u hs hu) h
    · cases h
    · cases h

-- ---------------------------------------------------------------- the buffers

/-- Every command keeps the buffers within their capacities. -/
theorem Effect.wf (h : Effect c i d) (hc : Memory.wf c = true) : Memory.wf d = true := by
  cases h with
  | pushb b => exact push_wf b hc
  | pushw w => exact pushWord_wf w hc
  | popb => exact dropOut_wf 1 hc
  | popw => exact dropOut_wf 4 hc
  | ldblk b => exact loadBlock_wf b hc
  | enc _ b => exact startEncrypt_wf true (loadBlock_wf b hc)
  | dec _ b => exact startDecrypt_wf true (loadBlock_wf b hc)
  | stblk => exact fill_wf hc
  | unchanged | setr | wrv0 | wrv1 | encr | decr => exact hc
  | clri | keyld => exact Memory.wf_iff.2 ⟨Nat.zero_le _, (Memory.wf_iff.1 hc).2⟩
  | clro => exact Memory.wf_iff.2 ⟨(Memory.wf_iff.1 hc).1, Nat.zero_le _⟩

/-- Every engine step keeps the buffers within their capacities. -/
theorem engineStep_wf (hc : Memory.wf c = true) (h : engineStep c = some d) : Memory.wf d = true := by
  obtain ⟨_, e⟩ | ⟨_, _, e⟩ | ⟨_, _, e⟩ | ⟨_, _, e⟩ := engineStep_cases c <;> rw [e] at h <;> cases h
  · exact finishStep_wf hc
  · exact hc
  · exact hc

/-- Settles O59: reset, the engine steps and the commands each keep the capacities. -/
theorem everyStepKeepsTheBuffersWithinTheirCapacities : Obligations.EveryStepKeepsTheBuffersWithinTheirCapacities :=
  fun _ _ => step_keeps (P := fun c => Memory.wf c = true) TeaCore.reset_wf engineStep_wf fun hc _ h => h.wf hc

/-- I2 of R37: the overflow flag is set only while the input buffer is full. -/
def TeaCore.OverflowsOnlyFull (c : TeaCore) : Prop := c.iovf = true → c.ibuf.length = 16

/-- Pushing bytes keeps I2: `IOVF` is set by the push that finds the buffer full, and the buffer stays full (R51). -/
theorem foldl_push_overflowsOnlyFull (bs : List Byte) (hc : c.ibuf.length ≤ 16) (ho : c.OverflowsOnlyFull) :
    (bs.foldl (fun d b => push b d) c).OverflowsOnlyFull := by
  obtain ⟨hbuf, hovf⟩ := foldl_push_buffer bs c hc
  intro h
  rw [hovf, Bool.or_eq_true, decide_eq_true_iff] at h
  rw [hbuf, List.length_take, List.length_append]
  obtain h | h := h
  · have := ho h
    omega
  · omega

/-- Every command keeps I2: one that empties the input buffer clears `IOVF` or is refused while `IOVF = 1` (R57). -/
theorem Effect.overflowsOnlyFull (h : Effect c i d) (hc : Memory.wf c = true) (ho : c.OverflowsOnlyFull) :
    d.OverflowsOnlyFull := by
  have vacuous (hi : c.iovf = false) {P : Prop} : c.iovf = true → P := fun ht => by rw [hi] at ht; cases ht
  cases h with
  | pushb b => exact foldl_push_overflowsOnlyFull [b] (Memory.wf_iff.1 hc).1 ho
  | pushw w => exact foldl_push_overflowsOnlyFull (bytesBe w) (Memory.wf_iff.1 hc).1 ho
  | clri => exact fun hi => nomatch hi
  | keyld k hk => exact vacuous (keyIn_eq_some.1 hk).1
  | ldblk b hb | enc _ b hb | dec _ b hb => exact vacuous (blockIn_eq_some.1 hb).1
  | _ => exact ho

-- ---------------------------------------------------------------- the invariants of R37

/-- While the engine is idle, the invariants of R37 say that the buffers are in order and nothing of an operation is left. -/
theorem TeaCore.inv_iff_of_idle (hp : c.phase = .idle) :
    c.Inv ↔ Memory.wf c = true ∧ c.OverflowsOnlyFull ∧ c.sto = false ∧ c.rcnt = 0#32 := by
  constructor
  · intro h
    exact ⟨Memory.wf_iff.2 h.i1, h.i2, by simpa [hp] using h.i4, h.i6 hp⟩
  · rintro ⟨hw, ho, hs, hr⟩
    exact { i1 := Memory.wf_iff.1 hw, i2 := ho, i3 := (absurd hp ·), i4 := by simp [hs], i5 := by rw [hr]; exact Nat.zero_le _,
            i6 := fun _ => hr, i7 := by simp [hp], i8 := by simp [hp], i9 := c.rounds.isLt }

theorem TeaCore.reset_inv : TeaCore.reset.Inv :=
  (TeaCore.inv_iff_of_idle rfl).2 ⟨TeaCore.reset_wf, (absurd · Bool.false_ne_true), rfl, rfl⟩

/-- A started encryption has the invariants: no round is done, and the sum is 0 (R146, I7). -/
theorem startEncrypt_inv (q : Bool) (hw : Memory.wf c = true) (ho : c.OverflowsOnlyFull) (hk : c.keyv = true) :
    (startEncrypt q c).Inv where
  i1 := Memory.wf_iff.1 hw
  i2 := ho
  i3 _ := hk
  i4 _ := by simp
  i5 := BitVec.le_refl _
  i6 h := nomatch h
  i7 _ := by simp
  i8 h := nomatch h
  i9 := c.rounds.isLt

/-- A started decryption has the invariants: every round is left, and the sum is `DELTA * ROUNDS` (R147, I8). -/
theorem startDecrypt_inv (q : Bool) (hw : Memory.wf c = true) (ho : c.OverflowsOnlyFull) (hk : c.keyv = true) :
    (startDecrypt q c).Inv where
  i1 := Memory.wf_iff.1 hw
  i2 := ho
  i3 _ := hk
  i4 _ := by simp
  i5 := BitVec.le_refl _
  i6 h := nomatch h
  i7 h := nomatch h
  i8 _ := rfl
  i9 := c.rounds.isLt

/-- A command either starts the engine, and then there is a key, or leaves `PHASE`, `STO` and `RCNT` alone (R146, R147). -/
theorem Effect.starts_or_keeps_sequencer (h : Effect c i d) :
    (d.keyv = true ∧ ∃ q e, d = startEncrypt q e ∨ d = startDecrypt q e) ∨
      (d.phase = c.phase ∧ d.sto = c.sto ∧ d.rcnt = c.rcnt) := by
  cases h with
  | encr k => exact .inl ⟨k, _, _, .inl rfl⟩
  | enc k => exact .inl ⟨k, _, _, .inl rfl⟩
  | decr k => exact .inl ⟨k, _, _, .inr rfl⟩
  | dec k => exact .inl ⟨k, _, _, .inr rfl⟩
  | pushb b => rw [push_frame b c]; exact .inr ⟨rfl, rfl, rfl⟩
  | pushw w => rw [pushWord_frame w c]; exact .inr ⟨rfl, rfl, rfl⟩
  | _ => exact .inr ⟨rfl, rfl, rfl⟩

/-- A command of an idle machine keeps the invariants. -/
theorem Effect.inv (h : Effect c i d) (hp : c.phase = .idle) (hc : c.Inv) : d.Inv := by
  obtain ⟨hw, ho, hs, hr⟩ := (TeaCore.inv_iff_of_idle hp).1 hc
  have hw' := h.wf hw
  have ho' := h.overflowsOnlyFull hw ho
  obtain ⟨hk, q, e, rfl | rfl⟩ | ⟨hp', hs', hr'⟩ := h.starts_or_keeps_sequencer
  · exact startEncrypt_inv q hw' ho' hk
  · exact startDecrypt_inv q hw' ho' hk
  · exact (TeaCore.inv_iff_of_idle (hp'.trans hp)).2 ⟨hw', ho', hs'.trans hs, hr'.trans hr⟩

/-- The finish step keeps the invariants: it is taken with no round left, and clears `STO` (R152). -/
theorem finishStep_inv (hc : c.Inv) (hr : c.rcnt = 0#32) : (finishStep c).Inv := by
  refine (TeaCore.inv_iff_of_idle (finishStep_phase c)).2 ⟨finishStep_wf (Memory.wf_iff.2 hc.i1), ?_, rfl, by simpa⟩
  unfold TeaCore.OverflowsOnlyFull
  rw [finishStep_iovf, finishStep_ibuf]
  exact hc.i2

/-- A round step of either direction keeps the invariants, if it moves the sum as I7 and I8 say. -/
theorem TeaCore.Inv.round (hc : c.Inv) (hp : c.phase ≠ .idle) (hr : c.rcnt ≠ 0#32) (v : Block) {sum : Word}
    (h7 : c.phase = .encrypt → sum = Config.delta * (c.rounds - (c.rcnt - 1#32)))
    (h8 : c.phase = .decrypt → sum = Config.delta * (c.rcnt - 1#32)) :
    TeaCore.Inv { c with v := v, sum := sum, rcnt := c.rcnt - 1#32 } where
  i1 := hc.i1
  i2 := hc.i2
  i3 := hc.i3
  i4 := hc.i4
  i5 := calc (c.rcnt - 1#32).toNat
    _ = c.rcnt.toNat - 1 := toNat_sub_one hr
    _ ≤ c.rcnt.toNat := Nat.sub_le _ _
    _ ≤ c.rounds.toNat := hc.i5
  i6 := (absurd · hp)
  i7 := h7
  i8 := h8
  i9 := hc.i9

/-- The encrypt round steps the sum by `DELTA` for the one round more that is done (R150, I7). -/
theorem encryptRoundStep_inv (hc : c.Inv) (hp : c.phase = .encrypt) (hr : c.rcnt ≠ 0#32) :
    (encryptRoundStep c).Inv := by
  refine hc.round (by simp [hp]) hr _ (fun _ => ?_) (fun h => by rw [hp] at h; cases h)
  have done : c.rounds - (c.rcnt - 1#32) = c.rounds - c.rcnt + 1#32 := by bv_omega
  rw [hc.i7 hp, done, BitVec.mul_add, BitVec.mul_one]

/-- The decrypt round steps the sum back by `DELTA` for the one round less that is left (R151, I8). -/
theorem decryptRoundStep_inv (hc : c.Inv) (hp : c.phase = .decrypt) (hr : c.rcnt ≠ 0#32) :
    (decryptRoundStep c).Inv := by
  refine hc.round (by simp [hp]) hr _ (fun h => by rw [hp] at h; cases h) (fun _ => ?_)
  rw [hc.i8 hp, BitVec.mul_sub, BitVec.mul_one]

/-- Every engine step keeps the invariants. -/
theorem engineStep_inv (hc : c.Inv) (h : engineStep c = some d) : d.Inv := by
  obtain ⟨_, e⟩ | ⟨_, hr, e⟩ | ⟨hp, hr, e⟩ | ⟨hp, hr, e⟩ := engineStep_cases c <;> rw [e] at h <;> cases h
  · exact finishStep_inv hc hr
  · exact encryptRoundStep_inv hc hp hr
  · exact decryptRoundStep_inv hc hp hr

/-- Settles O56: reset, the engine steps and the commands of an idle machine each keep the invariants. -/
theorem everyStepKeepsTheInvariants : Obligations.EveryStepKeepsTheInvariants :=
  fun _ _ => step_keeps TeaCore.reset_inv engineStep_inv fun hc hp h => h.inv hp hc

-- ---------------------------------------------------------------- reset and the reachable states

/-- Settles O1: the reset state is written as the table of R36. -/
theorem resetStateIsTheTableOfResetValues : Obligations.ResetStateIsTheTableOfResetValues := rfl

/-- Settles O57, by the invariants of an idle state. -/
theorem resetHasTheInvariants : Obligations.ResetHasTheInvariants := TeaCore.reset_inv

/-- Settles O58, by induction on the run from reset, with O57 and O56. -/
theorem everyReachableStateHasTheInvariants : Obligations.EveryReachableStateHasTheInvariants :=
  fun _ ⟨ms, _, h⟩ => run_keeps everyStepKeepsTheInvariants (s := State.withMoves ms) resetHasTheInvariants h

end Sys2Proof.Machine
end

section
/-! PROOFS. The family 20_memory.md: word transfers as byte transfers, idempotent writes, and what has no read path. -/

namespace Sys2Proof.Machine

variable {i : Instr} {s t : State} {w : Word}

-- ---------------------------------------------------------------- word transfers

/-- The word read at index 0 is made of the four oldest bytes, the oldest most significant (R14, R53). -/
theorem eq_bytesBe_append_of_memRead4 {b : List Byte} (h : memRead4 b 0 = some w) : b = bytesBe w ++ b.drop 4 := by
  match b with
  | b0 :: b1 :: b2 :: b3 :: rest =>
    cases h
    rw [bytesBe_be32]
    rfl
  | [] | [_] | [_, _] | [_, _, _] => cases h

/-- The zero extension of a byte, as `POPB` answers it (R174). -/
theorem setWidth_byte_eq_append (b : Byte) : b.setWidth 32 = 0#24 ++ b :=
  BitVec.setWidth_eq_append (by decide)

/-- `PUSHB` always answers OK (R102). -/
theorem exec_pushb (b : Byte) (s : State) :
    exec (.pushb b) s = .next ((s.withCore (push b s.core)).answer (rspWord .ok 0#32)) := rfl

/-- `POPB` answers the oldest byte and removes it (R174). -/
theorem exec_popb_cons {b : Byte} {rest : List Byte} (h : s.core.obuf = b :: rest) :
    exec .popb s = .next ((s.withCore { s.core with obuf := rest }).answer (0#4 ++ (0#24 ++ b))) := by
  simp only [exec, execPopb, h, memRead1, List.getElem?_cons_zero, respond_eq, dropOut, setWidth_byte_eq_append]
  rfl

/-- A `POPW` that answers OK with `w` found the bytes of `w` oldest in the output buffer, and removed them (R175). -/
theorem exec_popw_ok (h : exec .popw s = .next t) (hr : t.responses = s.responses ++ [0#4 ++ w]) :
    s.core.obuf = bytesBe w ++ s.core.obuf.drop 4 ∧
      t = (s.withCore (dropOut 4 s.core)).answer (0#4 ++ w) := by
  have answer {e : Code} {d : Word} (h : s.responses ++ [rspWord e d] = s.responses ++ [0#4 ++ w]) :
      rspWord e d = rspWord .ok w := List.singleton_inj.1 (List.append_cancel_left h)
  simp only [exec, execPopw] at h
  split at h
  · cases h
    have code := congrArg (BitVec.extractLsb' 32 4) (answer hr)
    rw [rspWord_code, rspWord_code] at code
    cases code
  · next v hv =>
    cases h
    have word : v = w := (BitVec.append_right_inj _).1 (answer hr)
    subst word
    exact ⟨eq_bytesBe_append_of_memRead4 hv, rfl⟩

/-- Settles O32: `PUSHW` folds `push` over the four bytes; the bytes of a popped word are the four oldest ones. -/
theorem wordTransfersAreFourByteTransfers : Obligations.WordTransfersAreFourByteTransfers := by
  constructor
  · intro w s t h
    cases h
    refine ⟨_, _, _, _, exec_pushb _ _, exec_pushb _ _, exec_pushb _ _, exec_pushb _ _, ?_, rfl, rfl⟩
    simp only [State.answer_core, State.withCore_core, pushWord, bytesBe, List.foldl_cons, List.foldl_nil]
  · intro s t w h hr
    obtain ⟨bytes, rfl⟩ := exec_popw_ok h hr
    refine ⟨_, _, _, _, exec_popb_cons bytes, exec_popb_cons rfl, exec_popb_cons rfl, exec_popb_cons rfl, ?_⟩
    simp [State.answer, State.withCore, dropOut]

-- ---------------------------------------------------------------- idempotent writes

/-- Each write of R58 always answers OK and sets its target whatever it held, so setting it again changes nothing. -/
theorem exec_idempotent_write (hi : i.mnemonic ∈ [.WRV0, .WRV1, .SETR, .CLRI, .CLRO, .STBLK]) :
    ∃ f : TeaCore → TeaCore, (∀ c, f (f c) = f c) ∧ ∀ s, exec i s = respond 0#32 (s.withCore (f s.core)) := by
  cases i with
  | wrv0 w => exact ⟨fun c => { c with v := { c.v with v0 := w } }, fun _ => rfl, fun _ => rfl⟩
  | wrv1 w => exact ⟨fun c => { c with v := { c.v with v1 := w } }, fun _ => rfl, fun _ => rfl⟩
  | setr n => exact ⟨fun c => { c with rounds := n }, fun _ => rfl, setRounds_rcw n⟩
  | clri => exact ⟨fun c => { c with ibuf := [], iovf := false }, fun _ => rfl, fun _ => rfl⟩
  | clro => exact ⟨fun c => { c with obuf := [] }, fun _ => rfl, fun _ => rfl⟩
  | stblk => exact ⟨fill, fun _ => rfl, fun _ => rfl⟩
  | _ => simp [Instr.mnemonic] at hi

/-- Settles O38: a write has the effect of an idempotent function. -/
theorem idempotentWritesMayBeRepeated : Obligations.IdempotentWritesMayBeRepeated := by
  intro i s t u hi h h'
  obtain ⟨f, idem, hf⟩ := exec_idempotent_write hi
  rw [hf] at h h'
  cases h
  cases h'
  exact ⟨idem _, rfl⟩

-- ---------------------------------------------------------------- no read path for the key and the input bytes

/-- `d` is `c` but for the key registers. -/
def SameButKey (c d : TeaCore) : Prop := ∃ k : Key, d = { c with key := k }

/-- The TEA-CORE state with another key and other input bytes: what has no read path (R60). -/
def TeaCore.withHidden (c : TeaCore) (k : Key) (b : List Byte) : TeaCore := { c with key := k, ibuf := b }

@[simp] theorem TeaCore.withHidden_obuf (c : TeaCore) (k : Key) (b : List Byte) : (c.withHidden k b).obuf = c.obuf := rfl

/-- Both results are next states with the same answer and the same inputs left, and under `p` with the same TEA-CORE state but
for the key registers. -/
def AnswerAlike (p : Prop) (x y : Result) : Prop :=
  ∃ (s : State) (c d : TeaCore) (r : RspWord),
    (p → SameButKey c d) ∧ x = .next ((s.withCore c).answer r) ∧ y = .next ((s.withCore d).answer r)

section
variable {p : Prop} {c d : TeaCore} {k : Key} {b : List Byte}

theorem AnswerAlike.respond (v : Word) (h : p → SameButKey c d) :
    AnswerAlike p (respond v (s.withCore c)) (respond v (s.withCore d)) := ⟨s, c, d, _, h, rfl, rfl⟩

theorem AnswerAlike.raise (e : Code) (h : p → SameButKey c d) :
    AnswerAlike p (raise e (s.withCore c)) (raise e (s.withCore d)) := ⟨s, c, d, _, h, rfl, rfl⟩

/-- Two commands that test the same thing first answer alike if they do in both cases. -/
theorem AnswerAlike.ite {q : Prop} [Decidable q] {x y x' y' : Result} (h : AnswerAlike p x y)
    (h' : AnswerAlike p x' y') : AnswerAlike p (if q then x else x') (if q then y else y') := by
  by_cases hq : q
  · rwa [if_pos hq, if_pos hq]
  · rwa [if_neg hq, if_neg hq]

/-- Pushes do not look at the key (R51). -/
theorem SameButKey.foldl_push (bs : List Byte) (h : SameButKey c d) :
    SameButKey (bs.foldl (fun e x => push x e) c) (bs.foldl (fun e x => push x e) d) := by
  induction bs generalizing c d with
  | nil => exact h
  | cons x bs ih =>
    obtain ⟨k, rfl⟩ := h
    refine ih (c := push x c) (d := push x { c with key := k }) ?_
    unfold push
    split <;> exact ⟨k, rfl⟩

theorem sameButKey_withHidden (e : b = c.ibuf) : SameButKey c (c.withHidden k b) := ⟨k, by rw [e]; rfl⟩

/-- `STATUS` shows the number of input bytes and neither them nor the key (R32). -/
theorem status_withHidden (hb : b.length = c.ibuf.length) : status (c.withHidden k b) = status c := by
  have number : icnt (c.withHidden k b) = icnt c := hb
  rw [status, number]
  rfl

/-- Two optional values that are absent together are related if their values are. -/
theorem rel_of_eq_none_iff {α β : Type} {r : α → β → Prop} {o : Option α} {o' : Option β}
    (absent : o = none ↔ o' = none) (values : ∀ v v', o = some v → o' = some v' → r v v') : Option.Rel r o o' := by
  match o, o' with
  | none, none => exact .none
  | none, some _ => exact nomatch absent.1 rfl
  | some _, none => exact nomatch absent.2 rfl
  | some _, some _ => exact .some (values _ _ rfl rfl)

/-- Whether there is a key to load depends on the number of input bytes, not on their values (R104). -/
theorem keyIn_withHidden (hb : b.length = c.ibuf.length) :
    Option.Rel (fun _ _ => True) (keyIn c) (keyIn (c.withHidden k b)) :=
  rel_of_eq_none_iff (by simp only [keyIn_eq_none, TeaCore.withHidden, hb]) fun _ _ _ _ => trivial

/-- Whether there is a block to load depends on the number of input bytes, not on their values, and the block not on the key
(R171). -/
theorem blockIn_withHidden (hb : b.length = c.ibuf.length) :
    Option.Rel (fun v v' => b = c.ibuf → v' = v) (blockIn c) (blockIn (c.withHidden k b)) := by
  refine rel_of_eq_none_iff (by simp only [blockIn_eq_none, TeaCore.withHidden, hb]) fun v v' h h' => ?_
  rintro rfl
  exact Option.some_inj.1 (h'.symm.trans h)

/-- A command that takes the block out of the input buffer and puts the TEA-CORE state `f v` in place, `v` being the block
(R171, R176, R177). -/
theorem answerAlike_consumeBlock {f : Block → TeaCore → TeaCore} (hb : b.length = c.ibuf.length)
    (hf : ∀ v, SameButKey (f v c) (f v (c.withHidden k b))) :
    AnswerAlike (b = c.ibuf)
      (match blockIn c with
        | none => raise .invalidBlockLength (s.withCore c)
        | some v => respond 0#32 (s.withCore (f v c)))
      (match blockIn (c.withHidden k b) with
        | none => raise .invalidBlockLength (s.withCore (c.withHidden k b))
        | some v => respond 0#32 (s.withCore (f v (c.withHidden k b)))) := by
  have rel := blockIn_withHidden (c := c) (k := k) hb
  generalize blockIn c = o, blockIn (c.withHidden k b) = o' at rel ⊢
  cases rel with
  | none => exact .raise _ sameButKey_withHidden
  | some same => exact .respond _ fun e => same e ▸ hf _

/-- A command gives the same answer whatever the key and whatever bytes the input buffer holds, their number apart; and where
the bytes are the same, it leaves the same state but for the key (R60). -/
theorem exec_withHidden (i : Instr) (s : State) (k : Key) (hb : b.length = c.ibuf.length) :
    AnswerAlike (b = c.ibuf) (exec i (s.withCore c)) (exec i (s.withCore (c.withHidden k b))) := by
  have hidden : b = c.ibuf → SameButKey c (c.withHidden k b) := sameButKey_withHidden
  cases i with
  | nop | rdbsz | rdksz => exact .respond _ hidden
  | rdr => exact .respond c.rounds hidden
  | rdv0 => exact .respond c.v.v0 hidden
  | rdv1 => exact .respond c.v.v1 hidden
  | rdstat =>
    simp only [exec, execRdstat, State.withCore_core, status_withHidden hb]
    exact .respond _ hidden
  | clri | clro | wrv0 | wrv1 | stblk => exact .respond _ fun e => e ▸ ⟨k, rfl⟩
  | setr n =>
    simp only [exec, execSetr, setRounds_rcw]
    exact .respond _ fun e => e ▸ ⟨k, rfl⟩
  | pushb x => exact .respond _ fun e => (hidden e).foldl_push [x]
  | pushw w => exact .respond _ fun e => (hidden e).foldl_push (bytesBe w)
  | popb =>
    simp only [exec, execPopb, State.withCore_core, TeaCore.withHidden_obuf]
    split
    · exact .raise _ hidden
    · exact .respond _ fun e => e ▸ ⟨k, rfl⟩
  | popw =>
    simp only [exec, execPopw, State.withCore_core, TeaCore.withHidden_obuf]
    split
    · exact .raise _ hidden
    · exact .respond _ fun e => e ▸ ⟨k, rfl⟩
  | encr | decr => exact .ite (q := c.keyv = true) (.respond _ (fun e => e ▸ ⟨k, rfl⟩)) (.raise _ hidden)
  | keyld =>
    simp only [exec, execKeyld, State.withCore_core]
    have rel := keyIn_withHidden (c := c) (k := k) hb
    generalize keyIn c = o, keyIn (c.withHidden k b) = o' at rel ⊢
    cases rel with
    | none => exact .raise _ hidden
    | some => exact .respond _ fun _ => ⟨_, rfl⟩
  | ldblk => exact answerAlike_consumeBlock (s := s) (f := loadBlock) hb fun _ => ⟨k, rfl⟩
  | enc =>
    exact .ite (q := c.keyv = true)
      (answerAlike_consumeBlock (s := s) (f := fun v d => startEncrypt true (loadBlock v d)) hb fun _ => ⟨k, rfl⟩)
      (.raise _ hidden)
  | dec =>
    exact .ite (q := c.keyv = true)
      (answerAlike_consumeBlock (s := s) (f := fun v d => startDecrypt true (loadBlock v d)) hb fun _ => ⟨k, rfl⟩)
      (.raise _ hidden)

end

/-- Settles O37, by `exec_withHidden` twice: the key alone is another, or the input bytes alone. -/
theorem noCommandRevealsTheKeyOrTheInputBytes : Obligations.NoCommandRevealsTheKeyOrTheInputBytes := by
  constructor
  · intro i s t k h
    obtain ⟨s', c, d, r, same, hc, hd⟩ := exec_withHidden (c := s.core) (b := s.core.ibuf) i s k rfl
    cases hc.symm.trans h
    obtain ⟨k', rfl⟩ := same rfl
    exact ⟨_, hd, rfl, rfl, rfl, rfl⟩
  · intro i s t b hb h
    obtain ⟨s', c, d, r, _, hc, hd⟩ := exec_withHidden i s s.core.key hb
    cases hc.symm.trans h
    exact ⟨_, hd, rfl⟩

end Sys2Proof.Machine
end

section
/-! PROOFS. The family 30_encoding.md: the decoder against the encoder, the opcode map and the assembler, and what the command
port does with a word. -/

namespace Sys2Proof

variable {c : CmdWord} {i : Instr} {m m' : Mnemonic} {arg : Word}

-- ---------------------------------------------------------------- encode and decode

/-- A legal word is the encoding of what it decodes to (R78). -/
theorem encode_of_decode (h : decode c = .ok i) : encode i = c := by
  obtain ⟨hop, harg⟩ := decode_fields h
  rw [encode, ← hop, ← harg, opField_append_argField]

/-- A word decodes to a command exactly when it is that command's encoding (R78). -/
theorem decode_eq_ok_iff : decode c = .ok i ↔ encode i = c :=
  ⟨encode_of_decode, fun h => h ▸ Machine.decode_encode i⟩

/-- No two commands have one encoding (R78). -/
theorem encode_injective {i j : Instr} (h : encode i = encode j) : i = j :=
  Except.ok.inj ((decode_eq_ok_iff.2 rfl).symm.trans (decode_eq_ok_iff.2 h.symm))

/-- Settles O3, by the fields of the word: `encode` puts together what `decode` reads. -/
theorem decodeAndEncodeAreInverse : Obligations.DecodeAndEncodeAreInverse :=
  ⟨Machine.decode_encode, fun _ _ => encode_of_decode⟩

/-- Settles O6, by evaluation of the decoder on the twelve words. -/
theorem vectorWordsDecodeAsListed : Obligations.VectorWordsDecodeAsListed := by
  unfold Obligations.VectorWordsDecodeAsListed
  decide

-- ---------------------------------------------------------------- the operands of a format

/-- The values of the field `arg` that a format allows (R71). -/
def Format.Fits : Format → Word → Prop
  | .N, arg => arg = 0#32
  | .B, arg => arg.extractLsb' 8 24 = 0#24
  | .W, _ => True

/-- The operand of a command fits the format of its mnemonic. -/
theorem Instr.arg_fits (i : Instr) : i.mnemonic.format.Fits i.arg := by
  cases i with
  | pushb b => exact setWidth_byte_high b
  | pushw | setr | wrv0 | wrv1 => trivial
  | _ => rfl

theorem Format.fits_zero (f : Format) : f.Fits 0#32 := by
  cases f with
  | N => rfl
  | B => rfl
  | W => trivial

/-- Format B is the format of `PUSHB` alone (R75). -/
theorem Mnemonic.format_eq_B (h : m.format = .B) : m = .PUSHB := by
  cases m with
  | PUSHB => rfl
  | _ => cases h

-- ---------------------------------------------------------------- assembling

/-- The source line of a mnemonic with the field `arg` as its operand, where its format has one (R79). -/
def Mnemonic.line (m : Mnemonic) (arg : Word) : SourceLine where
  mnemonic := m
  operand := if m.format = .N then none else some arg.toNat

theorem SourceLine.assemble_isSome (l : SourceLine) : l.assemble.isSome = l.wellFormed := by
  unfold SourceLine.assemble
  split
  · next h => rw [h, Option.isSome_some]
  · next h => rw [Bool.eq_false_of_not_eq_true h, Option.isSome_none]

/-- A word with zeros above its low byte is a number below 256 (R71). -/
theorem toNat_lt_of_fits_B (h : Format.B.Fits arg) : arg.toNat < 256 := by
  rw [← setWidth_lowByte h, BitVec.toNat_setWidth_of_le (by decide)]
  exact (arg.extractLsb' 0 8).isLt

/-- The line of a mnemonic with a fitting operand assembles to the command with this mnemonic and this operand. -/
theorem Mnemonic.assemble_line (m : Mnemonic) (h : m.format.Fits arg) :
    ∃ i, (m.line arg).assemble = some i ∧ i.mnemonic = m ∧ i.arg = arg := by
  cases m with
  | PUSHB =>
    have wf : (Mnemonic.PUSHB.line arg).wellFormed = true := decide_eq_true (toNat_lt_of_fits_B h)
    refine ⟨_, if_pos wf, rfl, ?_⟩
    calc (BitVec.ofNat 8 arg.toNat).setWidth 32
      _ = (arg.extractLsb' 0 8).setWidth 32 := by
        rw [BitVec.ofNat_toNat, BitVec.setWidth_eq_extractLsb' (w := 8) (by decide)]
      _ = arg := setWidth_lowByte h
  | PUSHW | SETR | WRV0 | WRV1 =>
    exact ⟨_, if_pos (decide_eq_true arg.isLt), rfl, BitVec.ofNat_toNat ..⟩
  | _ => exact ⟨_, rfl, rfl, h.symm⟩

/-- Every mnemonic with a fitting operand is a command. -/
theorem Mnemonic.exists_instr (m : Mnemonic) (h : m.format.Fits arg) : ∃ i : Instr, i.mnemonic = m ∧ i.arg = arg := by
  obtain ⟨i, _, hi⟩ := m.assemble_line h
  exact ⟨i, hi⟩

/-- Settles O7: the line of a command assembles to a command with the same encoding. -/
theorem exactlyTheWellFormedLinesAssemble : Obligations.ExactlyTheWellFormedLinesAssemble := by
  refine ⟨SourceLine.assemble_isSome, fun i => ?_, fun n => SourceLine.assemble_isSome _⟩
  obtain ⟨j, assembles, hm, ha⟩ := i.mnemonic.assemble_line i.arg_fits
  have same : encode j = encode i := by rw [encode, encode, hm, ha]
  exact encode_injective same ▸ assembles

-- ---------------------------------------------------------------- the legal words

/-- No two mnemonics have one opcode (R75). -/
theorem Mnemonic.op_injective (h : m.op = m'.op) : m = m' := by
  obtain ⟨i, rfl, hi⟩ := m.exists_instr (Format.fits_zero _)
  obtain ⟨j, rfl, hj⟩ := m'.exists_instr (Format.fits_zero _)
  have same : encode i = encode j := by rw [encode, encode, h, hi, hj]
  rw [encode_injective same]

/-- A word decodes to a command exactly when its `op` is that of a mnemonic and its `arg` fits the mnemonic's format
(R71, R75). -/
theorem exists_decode_eq_ok_iff :
    (∃ i, decode c = .ok i) ↔ ∃ m : Mnemonic, opField c = m.op ∧ m.format.Fits (argField c) := by
  constructor
  · rintro ⟨i, h⟩
    obtain ⟨hop, harg⟩ := decode_fields h
    exact ⟨i.mnemonic, hop, harg ▸ i.arg_fits⟩
  · rintro ⟨m, hop, hfit⟩
    obtain ⟨i, rfl, hi⟩ := m.exists_instr hfit
    exact ⟨i, decode_eq_ok_iff.2 (by rw [encode, hi, ← hop, opField_append_argField])⟩

/-- A word is illegal exactly when no mnemonic has both its `op` and a format that its `arg` fits (R76). -/
theorem exists_decode_eq_error_iff :
    (∃ e, decode c = .error e) ↔ ∀ m : Mnemonic, opField c = m.op → ¬m.format.Fits (argField c) := by
  have legal := exists_decode_eq_ok_iff (c := c)
  cases h : decode c with
  | ok i =>
    obtain ⟨m, hop, hfit⟩ := legal.1 ⟨i, h⟩
    exact ⟨fun ⟨_, he⟩ => (nomatch he), fun unfit => absurd hfit (unfit m hop)⟩
  | error e =>
    rw [h] at legal
    exact ⟨fun _ m hop hfit => (nomatch legal.2 ⟨m, hop, hfit⟩), fun _ => ⟨e, rfl⟩⟩

/-- An illegal word is one of the three cases of R76: the mnemonic with its `op`, if there is one, is the only one. -/
theorem exists_decode_eq_error_iff_cases :
    (∃ e, decode c = .error e) ↔
      (∀ m : Mnemonic, opField c ≠ m.op) ∨
      (∃ m : Mnemonic, m.format = .N ∧ opField c = m.op ∧ argField c ≠ 0#32) ∨
      (opField c = Mnemonic.PUSHB.op ∧ (argField c).extractLsb' 8 24 ≠ 0#24) := by
  rw [exists_decode_eq_error_iff]
  constructor
  · intro illegal
    by_cases known : ∃ m : Mnemonic, opField c = m.op
    · obtain ⟨m, hop⟩ := known
      have unfit := illegal m hop
      cases hf : m.format with
      | N =>
        rw [hf] at unfit
        exact .inr (.inl ⟨m, hf, hop, unfit⟩)
      | B =>
        obtain rfl := Mnemonic.format_eq_B hf
        exact .inr (.inr ⟨hop, unfit⟩)
      | W =>
        rw [hf] at unfit
        exact absurd trivial unfit
    · exact .inl fun m hop => known ⟨m, hop⟩
  · rintro (unknown | ⟨m, hf, hop, hne⟩ | ⟨hop, hne⟩) m' hop' hfit
    · exact unknown m' hop'
    · obtain rfl := Mnemonic.op_injective (hop.symm.trans hop')
      rw [hf] at hfit
      exact hne hfit
    · obtain rfl := Mnemonic.op_injective (hop.symm.trans hop')
      exact hne hfit

/-- Bits 31 to 8 of a word are those of its field `arg` (R70). -/
theorem argField_high (c : CmdWord) : (argField c).extractLsb' 8 24 = c.extractLsb' 8 24 :=
  BitVec.extractLsb'_extractLsb'_of_le (by decide)

/-- Settles O5: the legal words are those of a mnemonic with a fitting operand, and an illegal one raises code 5. -/
theorem illegalWordsAreTheThreeCasesAndAnswerCodeFive : Obligations.IllegalWordsAreTheThreeCasesAndAnswerCodeFive := by
  constructor
  · intro c
    rw [exists_decode_eq_error_iff_cases, argField_high]
    rfl
  · rintro c s ⟨e, he⟩
    simp only [Machine.acceptWord, he]
    rfl

-- ---------------------------------------------------------------- the opcode map

/-- The bits of the field `arg` that a format asks to be 0 (R71). -/
def Format.argMask : Format → Word
  | .N => BitVec.allOnes 32
  | .B => BitVec.allOnes 24 ++ 0#8
  | .W => 0#32

/-- The row of a mnemonic, made of its opcode and its format (R75). -/
def Mnemonic.row (m : Mnemonic) : OpcodeRow where
  mnemonic := m
  pattern := m.op ++ 0#32
  mask := BitVec.allOnes 8 ++ m.format.argMask

theorem Mnemonic.row_mem_opcodeMap (m : Mnemonic) : m.row ∈ opcodeMap := by
  cases m <;> decide

/-- The printed columns `match` and `mask` are the opcode and the format of the mnemonic (R75). -/
theorem eq_row_of_mem_opcodeMap : ∀ r ∈ opcodeMap, r = r.mnemonic.row := by
  decide

theorem append_eq_append_iff {v w : Nat} {x x' : BitVec v} {y y' : BitVec w} :
    x ++ y = x' ++ y' ↔ x = x' ∧ y = y' := by
  constructor
  · intro h
    have high := congrArg (BitVec.extractLsb' w v) h
    have low := congrArg (BitVec.extractLsb' 0 w) h
    rw [BitVec.extractLsb'_append_eq_left, BitVec.extractLsb'_append_eq_left] at high
    rw [BitVec.extractLsb'_append_eq_right, BitVec.extractLsb'_append_eq_right] at low
    exact ⟨high, low⟩
  · rintro ⟨rfl, rfl⟩
    rfl

/-- A mask of ones above zeros selects the high part of a word. -/
theorem and_highMask_eq_zero_iff {v w : Nat} {x : BitVec (v + w)} :
    x &&& (BitVec.allOnes v ++ 0#w) = 0#v ++ 0#w ↔ x.extractLsb' w v = 0#v := by
  have parts := BitVec.extractLsb'_append_extractLsb' (x := x)
  rw [← parts, BitVec.and_append, BitVec.and_allOnes, BitVec.and_zero, append_eq_append_iff, parts, and_iff_left rfl]

/-- The mask of a format selects the bits that the format asks to be 0. -/
theorem Format.and_argMask_eq_zero_iff (f : Format) : arg &&& f.argMask = 0#32 ↔ f.Fits arg := by
  cases f with
  | N => rw [Format.argMask, BitVec.and_allOnes, Format.Fits]
  | B => exact and_highMask_eq_zero_iff (v := 24) (w := 8)
  | W => exact iff_of_true BitVec.and_zero trivial

/-- A word matches the row of a mnemonic exactly when its `op` is the mnemonic's and its `arg` fits the format (R75). -/
theorem Mnemonic.matches_row_iff (m : Mnemonic) :
    c &&& m.row.mask = m.row.pattern ↔ opField c = m.op ∧ m.format.Fits (argField c) := by
  calc c &&& m.row.mask = m.row.pattern
    _ ↔ (opField c ++ argField c) &&& (BitVec.allOnes 8 ++ m.format.argMask) = m.op ++ 0#32 := by
      rw [opField_append_argField]; rfl
    _ ↔ opField c = m.op ∧ argField c &&& m.format.argMask = 0#32 := by
      rw [BitVec.and_append, BitVec.and_allOnes, append_eq_append_iff]
    _ ↔ opField c = m.op ∧ m.format.Fits (argField c) := and_congr_right' m.format.and_argMask_eq_zero_iff

/-- Settles O4: matching a row and decoding to its mnemonic both say that the `op` is the mnemonic's and the `arg` fits. -/
theorem decoderAgreesWithTheOpcodeMap : Obligations.DecoderAgreesWithTheOpcodeMap := by
  constructor
  · intro c
    rw [exists_decode_eq_ok_iff]
    constructor
    · rintro ⟨m, h⟩
      exact ⟨m.row, m.row_mem_opcodeMap, m.matches_row_iff.2 h⟩
    · rintro ⟨r, hr, h⟩
      rw [eq_row_of_mem_opcodeMap r hr] at h
      exact ⟨r.mnemonic, r.mnemonic.matches_row_iff.1 h⟩
  · intro c i r h hr
    obtain ⟨hop, harg⟩ := decode_fields h
    rw [eq_row_of_mem_opcodeMap r hr, Mnemonic.matches_row_iff, hop, harg]
    constructor
    · exact fun ⟨same, _⟩ => (Mnemonic.op_injective same).symm
    · intro (same : r.mnemonic = i.mnemonic)
      rw [same]
      exact ⟨rfl, i.arg_fits⟩

end Sys2Proof

namespace Sys2Proof.Machine

variable {s : State} {w : CmdWord} {i : Instr} {ms : List Move} {c : TeaCore}

-- ---------------------------------------------------------------- the step of each move

theorem step_of_no_moves (hm : s.moves = []) : step s = portTurn s := by
  simp only [step, turn, hm]

/-- A word presented to a free port is put on it (R73). -/
theorem step_of_present (hp : s.port = none) (hm : s.moves = .present w :: ms) :
    step s = portTurn { s with port := some w, moves := ms } := by
  simp only [step, turn, hm, hp]

/-- A further word waits while one is held (log 10). -/
theorem step_of_present_waiting {w' : CmdWord} (hp : s.port = some w) (hm : s.moves = .present w' :: ms) :
    step s = portTurn s := by
  simp only [step, turn, hm, hp]

theorem step_of_engine_busy (hb : s.core.phase ≠ .idle) (hm : s.moves = .engine :: ms) :
    step s = .next (engineTurn { s with moves := ms }) := by
  simp only [step, turn, hm, busy_eq_true.2 hb, if_true]

/-- An idle machine uses up an `engine` move and looks at the port (log 10). -/
theorem step_of_engine_idle (hi : s.core.phase = .idle) (hm : s.moves = .engine :: ms) :
    step s = portTurn { s with moves := ms } := by
  simp only [step, turn, hm, busy_eq_false.2 hi]
  rfl

-- ---------------------------------------------------------------- acceptance and holding

/-- A legal word on the port that can be accepted is run (R73, R78). -/
theorem portTurn_of_accepts (hd : decode w = .ok i) (ha : accepts s.core.phase w = true) (hp : s.port = some w) :
    portTurn s = exec i { s with port := none } := by
  simp only [portTurn, hp, ha, acceptWord, hd, if_true]

/-- A word on the port that cannot be accepted leaves the turn to the engine (R73). -/
theorem portTurn_of_held (he : engineStep s.core = some c) (ha : accepts s.core.phase w = false) (hp : s.port = some w) :
    portTurn s = .next (s.withCore c) := by
  simp only [portTurn, hp, ha, engineTurn_of_some he]
  rfl

/-- A busy engine has an enabled step (R148). -/
theorem exists_engineStep_of_busy (hb : c.phase ≠ .idle) : ∃ d, engineStep c = some d := by
  obtain ⟨hi, _⟩ | ⟨_, _, e⟩ | ⟨_, _, e⟩ | ⟨_, _, e⟩ := engineStep_cases c
  · exact absurd hi hb
  · exact ⟨_, e⟩
  · exact ⟨_, e⟩
  · exact ⟨_, e⟩

/-- Settles O8: in each clause the word comes to the port's turn, and an idle machine accepts it. -/
theorem stepRunsTheDecodedCommand : Obligations.StepRunsTheDecodedCommand := by
  intro s w i hd hi
  have ha : accepts s.core.phase w = true := accepts_eq.2 (.inr hi)
  refine ⟨fun ms hp hm => ?_, fun hp hm => ?_, fun w' ms hp hm => ?_, fun ms hp hm => ?_⟩
  · rw [hp]
    exact (step_of_present hp hm).trans (portTurn_of_accepts hd ha rfl)
  · exact (step_of_no_moves hm).trans (portTurn_of_accepts hd ha hp)
  · exact (step_of_present_waiting hp hm).trans (portTurn_of_accepts hd ha hp)
  · exact (step_of_engine_idle hi hm).trans (portTurn_of_accepts hd ha hp)

/-- Settles O10: in each clause the word stays on the port, and the turn is the engine's. -/
theorem heldCommandHasNoEffectAndNoResponse : Obligations.HeldCommandHasNoEffectAndNoResponse := by
  intro s w hb hw
  have ha : accepts s.core.phase w = false := Bool.eq_false_of_not_eq_true fun h => (accepts_eq.1 h).elim hw hb
  obtain ⟨c, he⟩ := exists_engineStep_of_busy hb
  refine ⟨c, he, fun ms hp hm => ?_, fun hp hm => ?_, fun ms hp hm => ?_, fun w' ms hp hm => ?_⟩
  · exact (step_of_present hp hm).trans (portTurn_of_held he ha rfl)
  · exact (step_of_no_moves hm).trans (portTurn_of_held he ha hp)
  · exact (step_of_engine_busy hb hm).trans (congrArg _ (engineTurn_of_some he))
  · exact (step_of_present_waiting hp hm).trans (portTurn_of_held he ha hp)

-- ---------------------------------------------------------------- the placing of a table word

/-- A command has the opcode that a busy machine accepts exactly when it is `RDSTAT` (R73, R75). -/
theorem opField_eq_rdstat_iff (hd : decode w = .ok i) : opField w = 0x60#8 ↔ i = .rdstat := by
  constructor
  · intro hop
    rw [← opField_append_argField w, hop, decode_op_rdstat, decodeN_eq_ok] at hd
    exact hd.2.symm
  · rintro rfl
    exact (decode_fields hd).1

/-- A legal table word is a legal command word. -/
theorem decode_tableWord {nbits n : Nat} (h : decodeTableWord nbits n = some i) : decode (tableWord nbits n) = .ok i := by
  unfold decodeTableWord at h
  split at h
  · next hd => cases h; exact hd
  · cases h

/-- A placed legal word is run in the next step, in the TEA-CORE state the placing leaves (log 3). -/
theorem step_presentNext (hd : decode w = .ok i) (s : State) :
    step (presentNext w s) = exec i { s with core := (presentNext w s).core, port := none } := by
  have ha : accepts (presentNext w s).core.phase w = true := by
    unfold presentNext
    by_cases h : accepts s.core.phase w = true
    · simp only [h, if_true]
    · simp only [h]; exact accepts_eq.2 (.inr rfl)
  exact (step_of_present rfl rfl).trans
    (portTurn_of_accepts hd ha rfl)

/-- Settles O9: `RDSTAT` and an idle machine need nothing given up, every other command of a busy machine does. -/
theorem fetchedWordRunsInTheNextStep : Obligations.FetchedWordRunsInTheNextStep := by
  intro s nbits n i h
  have hd := decode_tableWord h
  have accepted : accepts s.core.phase (tableWord nbits n) = true ↔ i = .rdstat ∨ s.core.phase = .idle :=
    accepts_eq.trans (or_congr (opField_eq_rdstat_iff hd) Iff.rfl)
  constructor
  · intro free
    rw [State.withFetchWord, step_presentNext hd, presentNext, if_pos (accepted.2 free.symm)]
  · intro hb hi
    rw [State.withFetchWord, step_presentNext hd, presentNext, if_neg fun ha => (accepted.1 ha).elim hi hb]

-- ---------------------------------------------------------------- the response

/-- The codes that an accepted word can answer besides OK (R206, R210). -/
theorem Code.number_mem {e : Code} (h2 : e ≠ .invalidKeyFormat) (h3 : e ≠ .invalidRoundCount) :
    e.number ∈ [0#4, 1#4, 4#4, 5#4, 6#4, 7#4] := by
  cases e with
  | invalidKeyFormat => exact absurd rfl h2
  | invalidRoundCount => exact absurd rfl h3
  | _ => decide

/-- Settles O33: an accepted word raises one of the errors in use or responds. -/
theorem everyAcceptedWordGivesExactlyOneResponse : Obligations.EveryAcceptedWordGivesExactlyOneResponse := by
  intro w s
  obtain ⟨e, _, h2, h3, h⟩ | ⟨_, c, d, _, _, h⟩ := acceptWord_cases w s
  · exact ⟨_, e.number, 0#32, h, rfl, rfl, rfl, Code.number_mem h2 h3, fun _ => rfl⟩
  · exact ⟨_, 0#4, d, h, rfl, rfl, rfl, by decide, fun h0 => absurd rfl h0⟩

end Sys2Proof.Machine
end

section
/-! PROOFS. The family 40_key_expansion.md: the input buffer commands, the key load, and a host that pushes its key
as bytes or as words. -/

namespace Sys2Proof.Machine

variable {c d : TeaCore} {i : Instr} {s : State} {k : Key} {b bs : List Byte}

-- ---------------------------------------------------------------- keys as bytes

/-- The 16 bytes of a key, most significant first in each word; the inverse of `kx` (R54, R100). -/
def Key.bytes (k : Key) : List Byte := bytesBe k.k0 ++ bytesBe k.k1 ++ bytesBe k.k2 ++ bytesBe k.k3

theorem kx_bytes (k : Key) : kx k.bytes = some k := by
  simp [Key.bytes, bytesBe, kx, be32_bytes]

theorem length_of_kx (h : kx b = some k) : b.length = 16 := by
  by_contra hb
  rw [kx_eq_none.2 hb] at h
  cases h

theorem bytes_of_kx (h : kx b = some k) : k.bytes = b := by
  obtain ⟨b0, b1, b2, b3, b4, b5, b6, b7, b8, b9, b10, b11, b12, b13, b14, b15, rfl⟩ :=
    exists_bytes_of_length_eq_sixteen (length_of_kx h)
  cases h
  simp only [Key.bytes, bytesBe_be32]
  rfl

/-- An option that is none exactly off a condition is there exactly on it. -/
theorem isSome_eq_decide {α : Type} {o : Option α} {p : Prop} [Decidable p] (h : o = none ↔ ¬p) :
    o.isSome = decide p := by
  rw [Bool.eq_iff_iff, Option.isSome_iff_ne_none, ne_eq, h, not_not, decide_eq_true_iff]

/-- Settles O31: `Key.bytes` undoes `KX` on both sides, as `BlockToBytes` undoes `BytesToBlock`. -/
theorem byteAndWordConversionsAreBijections : Obligations.ByteAndWordConversionsAreBijections :=
  ⟨fun _ => ⟨isSome_eq_decide kx_eq_none, isSome_eq_decide bytesToBlock_eq_none⟩,
    fun k => ⟨k.bytes, kx_bytes k⟩,
    fun _ _ _ h h' => (bytes_of_kx h).symm.trans (bytes_of_kx h'),
    bytesToBlock_blockToBytes,
    fun _ _ => blockToBytes_of_bytesToBlock⟩

-- ---------------------------------------------------------------- clearing

/-- A push never clears `IOVF` (R51). -/
theorem push_iovf (b : Byte) (h : c.iovf = true) : (push b c).iovf = true := by
  obtain ⟨_, e⟩ | ⟨_, e⟩ := push_cases b c <;> rw [e]
  exact h

/-- Pushing bytes never clears `IOVF` (R51). -/
theorem foldl_push_iovf (bs : List Byte) (h : c.iovf = true) : (bs.foldl (fun d b => push b d) c).iovf = true := by
  induction bs generalizing c with
  | nil => exact h
  | cons b bs ih => exact ih (push_iovf b h)

/-- A command other than `CLRI` does not clear `IOVF` (R101). -/
theorem Effect.iovf_of_ne_clri (h : Effect c i d) (hi : i ≠ .clri) (ho : c.iovf = true) : d.iovf = true := by
  cases h with
  | clri => exact absurd rfl hi
  | pushb b => exact push_iovf b ho
  | pushw w => exact foldl_push_iovf (bytesBe w) ho
  | _ => exact ho

/-- Settles O13: both commands always answer OK, and the effect of no other command clears `IOVF`. -/
theorem clearCommandsEmptyTheirBuffer : Obligations.ClearCommandsEmptyTheirBuffer := by
  refine ⟨decode_encode .clri, decode_encode .clro, fun s => ⟨rfl, rfl⟩, fun i s t h ho hc => ?_⟩
  by_contra hi
  exact Bool.false_ne_true (hc.symm.trans ((exec_effect h).iovf_of_ne_clri hi ho))

-- ---------------------------------------------------------------- pushing

/-- The word of `PUSHB`, with its operand as R71 lays it out. -/
theorem encode_pushb (b : Byte) : encode (.pushb b) = 0x11#8 ++ 0#24 ++ b := by
  rw [BitVec.append_assoc, ← setWidth_byte_eq_append]
  rfl

/-- Settles O14, by the two cases of a push; the decoder's check of format B is on bits 31 to 8 of the word. -/
theorem pushByteAppendsOrSetsOverflow : Obligations.PushByteAppendsOrSetsOverflow := by
  refine ⟨fun b s => ⟨?_, fun room => ?_, fun full => ?_⟩, fun c hop hne => ?_⟩
  · exact decode_eq_ok_iff.2 (encode_pushb b)
  · obtain ⟨_, e⟩ | ⟨full, _⟩ := push_cases b s.core
    · rw [exec_pushb, e]; rfl
    · omega
  · obtain ⟨room, _⟩ | ⟨_, e⟩ := push_cases b s.core
    · omega
    · rw [exec_pushb, e]; rfl
  · rw [← opField_append_argField c, opField, hop, decode_op_pushb, decodeB, argField_high, if_neg hne]

/-- `PUSHW` always answers OK (R103). -/
theorem exec_pushw (w : Word) (s : State) :
    exec (.pushw w) s = .next ((s.withCore (pushWord w s.core)).answer (rspWord .ok 0#32)) := rfl

/-- What pushing bytes leaves, as a whole state: the bytes that fit, and the overflow of the others (R51). -/
theorem foldl_push_eq (bs : List Byte) (h : c.ibuf.length ≤ 16) :
    bs.foldl (fun d b => push b d) c =
      { c with ibuf := (c.ibuf ++ bs).take 16, iovf := c.iovf || decide (16 < c.ibuf.length + bs.length) } := by
  obtain ⟨hbuf, hovf⟩ := foldl_push_buffer bs c h
  rw [foldl_push_frame, hbuf, hovf]

/-- Settles O15: `PUSHW` pushes the four bytes of its word, of which one finds no room exactly if 12 were exceeded. -/
theorem pushWordAppendsFourBytesMostSignificantFirst : Obligations.PushWordAppendsFourBytesMostSignificantFirst := by
  intro w s h
  refine ⟨decode_encode (.pushw w), ?_⟩
  have overflows : 16 < s.core.ibuf.length + (bytesBe w).length ↔ 12 < s.core.ibuf.length := by
    rw [bytesBe_length]; omega
  rw [exec_pushw, pushWord, foldl_push_eq _ h, decide_eq_decide.2 overflows]
  rfl

-- ---------------------------------------------------------------- loading the key

/-- `KEYLD` with a key in the input buffer loads it and consumes the buffer (R104). -/
theorem exec_keyld_of_some (h : keyIn s.core = some k) :
    exec .keyld s =
      .next ((s.withCore { s.core with key := k, keyv := true, ibuf := [] }).answer (rspWord .ok 0#32)) := by
  simp only [exec, execKeyld, h, respond_eq]

/-- `KEYLD` without a key in the input buffer only answers (R104, R203). -/
theorem exec_keyld_of_none (h : keyIn s.core = none) :
    exec .keyld s = .next (s.answer (rspWord .invalidKeyLength 0#32)) := by
  simp only [exec, execKeyld, h, raise_eq]

/-- Settles O16: the input buffer holds a key exactly with 16 bytes and no overflow. -/
theorem keyLoadExpandsSixteenBytesOrRefusesTheLength : Obligations.KeyLoadExpandsSixteenBytesOrRefusesTheLength := by
  refine ⟨decode_encode .keyld, ?_, fun s h => exec_keyld_of_none (keyIn_eq_none.2 h)⟩
  intro s b0 b1 b2 b3 b4 b5 b6 b7 b8 b9 b10 b11 b12 b13 b14 b15 bytes hovf
  exact exec_keyld_of_some (keyIn_eq_some.2 ⟨hovf, bytes ▸ rfl⟩)

-- ---------------------------------------------------------------- key-load programs

/-- TEA-CORE after `CLRI` and the pushes of the bytes `bs`. -/
def TeaCore.filled (c : TeaCore) (bs : List Byte) : TeaCore :=
  { c with ibuf := bs.take 16, iovf := decide (16 < bs.length) }

/-- `CLRI` leaves TEA-CORE as it is before any push (R101). -/
theorem exec_clri_issuing (c : TeaCore) (is : List Instr) (r : List RspWord) :
    exec .clri (State.issuing c is r) = .next (State.issuing (c.filled []) is (r ++ [rspWord .ok 0#32])) := rfl

/-- Pushing more bytes onto pushed bytes. -/
theorem foldl_push_filled (c : TeaCore) (bs bs' : List Byte) :
    bs'.foldl (fun d b => push b d) (c.filled bs) = c.filled (bs ++ bs') := by
  have cleared (l : List Byte) : l.foldl (fun d b => push b d) (c.filled []) = c.filled l := by
    rw [foldl_push_eq l (Nat.zero_le _)]
    simp [TeaCore.filled]
  rw [← cleared bs, ← List.foldl_append, cleared]

/-- A host that pushed the bytes `bs` after `CLRI` has a key to load exactly where `KX bs` is one (R57, R104). -/
theorem keyIn_filled (c : TeaCore) (bs : List Byte) : keyIn (c.filled bs) = kx bs := by
  by_cases tooMany : 16 < bs.length
  · rw [keyIn_eq_none.2 (.inr (decide_eq_true tooMany)), kx_eq_none.2 (by omega)]
  · have fits : (c.filled bs).iovf ≠ true := fun h => tooMany (of_decide_eq_true h)
    rw [keyIn, if_neg fits, TeaCore.filled, List.take_of_length_le (by omega)]

section
variable {α : Type} {cmd : α → Instr} {bytes : α → List Byte} {as : List α} {is : List Instr}

/-- `cmd a` pushes the bytes `bytes a`: what `PUSHB` and `PUSHW` have in common (R56). -/
def Pushes (cmd : α → Instr) (bytes : α → List Byte) : Prop :=
  ∀ (a : α) (s : State), exec (cmd a) s = respond 0#32 (s.withCore ((bytes a).foldl (fun d b => push b d) s.core))

theorem pushes_pushb : Pushes .pushb fun b => [b] := fun _ _ => rfl

theorem pushes_pushw : Pushes .pushw bytesBe := fun _ _ => rfl

/-- A program that pushes takes one step and gives one OK for each command, and fills the buffer with all their bytes. -/
theorem run_issuing_pushes (hcmd : Pushes cmd bytes) (as : List α) (n : Nat) (hi : c.phase = .idle) (bs : List Byte)
    (r : List RspWord) :
    run (as.length + n) (State.issuing (c.filled bs) (as.map cmd ++ is) r) =
      run n (State.issuing (c.filled (bs ++ as.flatMap bytes)) is
        (r ++ List.replicate as.length (rspWord .ok 0#32))) := by
  induction as generalizing bs r with
  | nil => simp
  | cons a as ih =>
    have first : exec (cmd a) (State.issuing (c.filled bs) (as.map cmd ++ is) r) =
        .next (State.issuing (c.filled (bs ++ bytes a)) (as.map cmd ++ is) (r ++ [rspWord .ok 0#32])) := by
      rw [hcmd, ← foldl_push_filled]
      rfl
    calc run ((a :: as).length + n) (State.issuing (c.filled bs) ((a :: as).map cmd ++ is) r)
      _ = run (as.length + n + 1) (State.issuing (c.filled bs) (cmd a :: (as.map cmd ++ is)) r) := by
        rw [List.length_cons, Nat.add_right_comm]; rfl
      _ = run (as.length + n) (State.issuing (c.filled (bs ++ bytes a)) (as.map cmd ++ is)
            (r ++ [rspWord .ok 0#32])) := run_issuing_idle _ hi first
      _ = _ := by
        rw [ih, List.flatMap_cons, List.append_assoc, List.append_assoc]; rfl

/-- `CLRI`, pushes and `KEYLD`: the `KEYLD` finds the pushed bytes, and every command before it answered OK. -/
theorem run_keyLoadProgram (hcmd : Pushes cmd bytes) (hi : s.core.phase = .idle) (hp : s.port = none)
    (hm : s.moves = program (.clri :: as.map cmd ++ [.keyld])) :
    run (as.length + 2) s =
      run 1 (State.issuing (s.core.filled (as.flatMap bytes)) [.keyld]
        (s.responses ++ List.replicate (as.length + 1) (rspWord .ok 0#32))) :=
  calc run (as.length + 2) s
    _ = run (as.length + 1 + 1) (State.issuing s.core (.clri :: (as.map cmd ++ [Instr.keyld])) s.responses) :=
      congrArg (run _) (State.eq_issuing hp hm)
    _ = run (as.length + 1) (State.issuing (s.core.filled []) (as.map cmd ++ [.keyld])
          (s.responses ++ [rspWord .ok 0#32])) := run_issuing_idle _ hi (exec_clri_issuing ..)
    _ = _ := by
      rw [run_issuing_pushes hcmd as 1 hi, List.nil_append, List.append_assoc]; rfl

/-- What a host's key load ends in, for bytes that are a key and for bytes that are not (R104, R204). -/
theorem exists_run_keyLoadProgram (hcmd : Pushes cmd bytes) (hi : s.core.phase = .idle) (hp : s.port = none)
    (hm : s.moves = program (.clri :: as.map cmd ++ [.keyld])) :
    ∃ t, run (as.length + 2) s = .next t ∧
      (∀ k, kx (as.flatMap bytes) = some k → t.core.key = k ∧ t.core.keyv = true ∧ t.core.ibuf = [] ∧
        t.responses = s.responses ++ List.replicate (as.length + 2) (0#4 ++ 0#32)) ∧
      (kx (as.flatMap bytes) = none → t.core.key = s.core.key ∧ t.core.keyv = s.core.keyv ∧
        t.responses = s.responses ++ List.replicate (as.length + 1) (0#4 ++ 0#32) ++ [1#4 ++ 0#32]) := by
  have loads := run_keyLoadProgram hcmd hi hp hm
  have found := keyIn_filled s.core (as.flatMap bytes)
  cases hk : kx (as.flatMap bytes) with
  | some k =>
    rw [hk] at found
    refine ⟨_, loads.trans (run_issuing_idle 0 hi (exec_keyld_of_some found)), fun k' e => ?_, fun e => (nomatch e)⟩
    cases e
    refine ⟨rfl, rfl, rfl, ?_⟩
    rw [List.replicate_succ' (n := as.length + 1), ← List.append_assoc]
    rfl
  | none =>
    rw [hk] at found
    exact ⟨_, loads.trans (run_issuing_idle 0 hi (exec_keyld_of_none found)), fun _ e => (nomatch e),
      fun _ => ⟨rfl, rfl, rfl⟩⟩

end

/-- Settles O54: the bytes pushed are a key exactly if there are 16. -/
theorem keyLoadSucceedsExactlyForSixteenPushedBytes : Obligations.KeyLoadSucceedsExactlyForSixteenPushedBytes := by
  intro s b hi hp hm
  obtain ⟨t, ends, loaded, refused⟩ := exists_run_keyLoadProgram pushes_pushb hi hp hm
  rw [List.flatMap_singleton'] at loaded refused
  refine ⟨t, ends, fun h16 => ?_, fun hne => refused (kx_eq_none.2 hne)⟩
  obtain ⟨k, hk⟩ := Option.ne_none_iff_exists'.1 fun h => kx_eq_none.1 h h16
  obtain ⟨rfl, hv, hb, hr⟩ := loaded k hk
  rw [h16] at hr
  exact ⟨hk, hv, hb, hr⟩

/-- Settles O55: the words pushed are four bytes each, and the bytes of four words are the key of these words. -/
theorem wordKeyIsExactlyFourPushedWords : Obligations.WordKeyIsExactlyFourPushedWords := by
  intro s ws hi hp hm
  obtain ⟨t, ends, loaded, refused⟩ := exists_run_keyLoadProgram pushes_pushw hi hp hm
  refine ⟨t, ends, ?_, fun hne => refused (kx_eq_none.2 ?_)⟩
  · rintro w0 w1 w2 w3 rfl
    obtain ⟨hk, hv, _, hr⟩ := loaded _ (kx_bytes ⟨w0, w1, w2, w3⟩)
    exact ⟨hk, hv, hr⟩
  · have four : (ws.flatMap bytesBe).length = ws.length * 4 := by
      simp [List.length_flatMap]
    omega

end Sys2Proof.Machine
end

section
/-! PROOFS. The family 41_construction.md: the round count, the register and constant reads, the status, and what a running
operation leaves alone. -/

namespace Sys2Proof.Machine

variable {c d : TeaCore} {s t : State} {w : CmdWord} {ms : List Move}

-- ---------------------------------------------------------------- the round count

section
variable {rcw : Nat} {n : Word}

/-- A count that does not fit a register of `rcw` bits is refused (R121, R206). -/
theorem setRounds_of_le (h : 2 ^ rcw ≤ n.toNat) (s : State) : setRounds rcw n s = raise .invalidRoundCount s :=
  if_pos h

/-- A count that fits a register of `rcw` bits is written (R121). -/
theorem setRounds_of_lt (h : n.toNat < 2 ^ rcw) (s : State) :
    setRounds rcw n s = respond 0#32 (s.withCore { s.core with rounds := n }) :=
  if_neg (Nat.not_le_of_lt h)

end

/-- Settles O17: a word always fits the 32 bits of this hardware's register. -/
theorem setRoundsWritesTheCountOrRefusesWhatDoesNotFit :
    Obligations.SetRoundsWritesTheCountOrRefusesWhatDoesNotFit :=
  ⟨fun n s => ⟨decode_encode (.setr n), setRounds_rcw n s⟩,
    fun _ _ s => ⟨fun h => setRounds_of_le h s, fun h => setRounds_of_lt h s⟩⟩

-- ---------------------------------------------------------------- register and constant reads

/-- Settles O18: each read is a response with the register, on the state as it is. -/
theorem registerReadsReturnTheRegister : Obligations.RegisterReadsReturnTheRegister :=
  ⟨decode_encode .rdr, decode_encode .rdv0, decode_encode .rdv1,
    fun s => ⟨respond_eq s.core.rounds s, respond_eq s.core.v.v0 s, respond_eq s.core.v.v1 s⟩⟩

/-- Settles O20: each is a response with a constant, on the state as it is. -/
theorem constantsReadEightAndSixteenAndNopDoesNothing :
    Obligations.ConstantsReadEightAndSixteenAndNopDoesNothing :=
  ⟨decode_encode .rdbsz, decode_encode .rdksz, decode_encode .nop,
    fun s => ⟨respond_eq 8#32 s, respond_eq 16#32 s, respond_eq 0#32 s⟩⟩

-- ---------------------------------------------------------------- the status

/-- A word presented to a free port is accepted in that step if the phase allows it (R73). -/
theorem step_of_present_accepted (hp : s.port = none) (hm : s.moves = .present w :: ms)
    (ha : accepts s.core.phase w = true) : step s = acceptWord w { s with moves := ms } := by
  rw [step_of_present hp hm]
  simp only [portTurn, ha, if_true, hp]

/-- The word of `RDSTAT` runs it (R78). -/
theorem acceptWord_rdstat (s : State) : acceptWord (0x60#8 ++ 0#32) s = exec .rdstat s := rfl

/-- The word of `RDSTAT` with an operand is illegal (R76). -/
theorem acceptWord_rdstat_of_arg_ne_zero {arg : Word} (h : arg ≠ 0#32) (s : State) :
    acceptWord (0x60#8 ++ arg) s = raise .illegalCommand s := by
  simp only [acceptWord, decode_op_rdstat, decodeN, if_neg h]

/-- The opcode of `RDSTAT` is accepted in every phase, whatever the operand (R73, R123). -/
theorem accepts_rdstat (p : Phase) (arg : Word) : accepts p (0x60#8 ++ arg) = true :=
  accepts_eq.2 (.inl (opField_append _ _))

/-- A busy engine accepts the opcode of `RDSTAT` and no other (R73, R123). -/
theorem accepts_iff_of_busy {p : Phase} (h : p ≠ .idle) : accepts p w = true ↔ opField w = 0x60#8 :=
  accepts_eq.trans (or_iff_left h)

/-- Settles O19: the fields are read back from the assembled word, and acceptance looks at the opcode alone. -/
theorem statusReadReturnsTheFieldsOfTheViewInEveryPhase :
    Obligations.StatusReadReturnsTheFieldsOfTheViewInEveryPhase := by
  refine ⟨fun s hi ho => ?_, fun s ms hp hm => ?_, fun s arg ms hne hp hm => ?_, fun p w => accepts_iff_of_busy⟩
  · exact ⟨status s.core, respond_eq _ s, status_busy _, status_keyv _, status_iovf _, status_reserved_low _,
      status_icnt _ hi, status_reserved_mid _, status_ocnt _ ho, status_reserved_high _⟩
  · rw [step_of_present_accepted hp hm (accepts_rdstat _ _), acceptWord_rdstat]
  · rw [step_of_present_accepted hp hm (accepts_rdstat _ _), acceptWord_rdstat_of_arg_ne_zero hne]
    rfl

-- ---------------------------------------------------------------- what a running operation leaves alone

/-- A step of a busy machine without `rst` leaves TEA-CORE as it was or takes the enabled engine step (R73, R127). -/
theorem step_core_cases_of_busy (hb : s.core.phase ≠ .idle) (hr : ∀ ms, s.moves ≠ .rst :: ms)
    (h : step s = .next t) : t.core = s.core ∨ engineStep s.core = some t.core := by
  obtain ⟨_, _, e⟩ | ⟨ms, hm, _⟩ | ⟨u, hu, _, e | ⟨w, ha, e⟩⟩ := step_cases s
  · rw [e] at h
    cases h
  · exact absurd hm (hr ms)
  · obtain ⟨c, he⟩ := exists_engineStep_of_busy hb
    rw [e, engineTurn_of_some (hu ▸ he)] at h
    cases h
    exact .inr he
  · rw [e] at h
    rw [← hu] at hb ⊢
    exact .inl ((acceptWord_core (s := { u with port := none }) ha h).resolve_right fun hc => hb hc.1)

/-- No engine step writes the key, `KEYV`, `ROUNDS` or the input buffer (R127). -/
theorem engineStep_frame (h : engineStep c = some d) :
    d.key = c.key ∧ d.keyv = c.keyv ∧ d.rounds = c.rounds ∧ d.ibuf = c.ibuf ∧ d.iovf = c.iovf := by
  obtain ⟨_, e⟩ | ⟨_, _, e⟩ | ⟨_, _, e⟩ | ⟨_, _, e⟩ := engineStep_cases c <;> rw [e] at h <;> cases h
  · exact ⟨finishStep_key c, finishStep_keyv c, finishStep_rounds c, finishStep_ibuf c, finishStep_iovf c⟩
  · exact ⟨rfl, rfl, rfl, rfl, rfl⟩
  · exact ⟨rfl, rfl, rfl, rfl, rfl⟩

/-- Settles O43: a busy machine accepts nothing that writes TEA-CORE, and an engine step has this frame. -/
theorem runningOperationKeepsKeyRoundsAndInput : Obligations.RunningOperationKeepsKeyRoundsAndInput := by
  intro s t hb hr h
  obtain e | e := step_core_cases_of_busy hb hr h
  · rw [e]
    exact ⟨rfl, rfl, rfl, rfl, rfl⟩
  · exact engineStep_frame e

end Sys2Proof.Machine
end

section
/-! PROOFS. The family 42_round_unit.md: the commands of the word path, the engine's steps written out, whole operations as
functions of key, round count and block, and what a busy machine does with the words it is presented. -/

namespace Sys2Proof.Machine

variable {c d : TeaCore} {i : Instr} {s t : State} {w : CmdWord} {n : Nat}

-- ---------------------------------------------------------------- the commands of the word path

/-- Settles O21: each is a response on the state with the word written. -/
theorem wordWritesSetOneBlockWord : Obligations.WordWritesSetOneBlockWord :=
  fun w s => ⟨decode_op_wrv0 w, decode_op_wrv1 w,
    respond_eq 0#32 (s.withCore { s.core with v := { s.core.v with v0 := w } }),
    respond_eq 0#32 (s.withCore { s.core with v := { s.core.v with v1 := w } })⟩

/-- With a key `ENCR` starts the engine (R146). -/
theorem exec_encr_of_key (h : s.core.keyv = true) :
    exec .encr s = .next ((s.withCore (startEncrypt false s.core)).answer (rspWord .ok 0#32)) := if_pos h

/-- Without a key `ENCR` only answers (R146, R203). -/
theorem exec_encr_of_no_key (h : s.core.keyv = false) : exec .encr s = .next (s.answer (rspWord .noKey 0#32)) :=
  if_neg (ne_true_of_eq_false h)

/-- With a key `DECR` starts the engine (R147). -/
theorem exec_decr_of_key (h : s.core.keyv = true) :
    exec .decr s = .next ((s.withCore (startDecrypt false s.core)).answer (rspWord .ok 0#32)) := if_pos h

/-- Without a key `DECR` only answers (R147, R203). -/
theorem exec_decr_of_no_key (h : s.core.keyv = false) : exec .decr s = .next (s.answer (rspWord .noKey 0#32)) :=
  if_neg (ne_true_of_eq_false h)

/-- Settles O22, by `KEYV`. -/
theorem wordEncryptStartsTheEngineOrAnswersNoKey : Obligations.WordEncryptStartsTheEngineOrAnswersNoKey :=
  ⟨decode_encode .encr, fun _ => ⟨exec_encr_of_key, exec_encr_of_no_key⟩⟩

/-- Settles O23, by `KEYV`. -/
theorem wordDecryptStartsTheEngineOrAnswersNoKey : Obligations.WordDecryptStartsTheEngineOrAnswersNoKey :=
  ⟨decode_encode .decr, fun _ => ⟨exec_decr_of_key, exec_decr_of_no_key⟩⟩

/-- `DELTA` is odd: it has an inverse modulo 2^32. -/
theorem inverse_mul_delta : 0x144CBC89#32 * Config.delta = 1#32 := by decide

/-- No two round counts give the same multiple of `DELTA` (R147). -/
theorem delta_mul_injective : Function.Injective fun n : Word => Config.delta * n :=
  Function.LeftInverse.injective (g := fun n => 0x144CBC89#32 * n) fun n => calc
    0x144CBC89#32 * (Config.delta * n)
    _ = 0x144CBC89#32 * Config.delta * n := (BitVec.mul_assoc _ _ _).symm
    _ = n := by rw [inverse_mul_delta, BitVec.one_mul]

/-- The original software's constant is the sum of 32 rounds (C2, D7). -/
theorem delta_mul_thirtyTwo : Config.delta * 32#32 = 0xC6EF3720#32 := by decide

/-- Settles O24: the sum is `DELTA * ROUNDS`, and the constant is `DELTA * 32`. -/
theorem decryptSumIsTheOldConstantOnlyForThirtyTwoRounds :
    Obligations.DecryptSumIsTheOldConstantOnlyForThirtyTwoRounds := by
  intro s t hk h
  rw [exec_decr_of_key hk] at h
  cases h
  rw [← delta_mul_thirtyTwo]
  exact delta_mul_injective.eq_iff

-- ---------------------------------------------------------------- the engine's steps

/-- The finish step as a whole state (R152). -/
theorem finishStep_eq (c : TeaCore) :
    finishStep c =
      { c with obuf := if c.sto = true then blockToBytes c.v else c.obuf, sto := false, phase := .idle } := by
  unfold finishStep
  split <;> rfl

/-- A busy engine with no round left takes the finish step (R148). -/
theorem engineStep_of_no_round_left (hb : c.phase ≠ .idle) (hr : c.rcnt = 0#32) :
    engineStep c = some (finishStep c) := by
  obtain ⟨hi, _⟩ | ⟨_, _, e⟩ | ⟨_, hn, _⟩ | ⟨_, hn, _⟩ := engineStep_cases c
  · exact absurd hi hb
  · exact e
  · exact absurd hr hn
  · exact absurd hr hn

/-- An encryption with rounds left takes an encrypt round step (R148). -/
theorem engineStep_of_encrypt (hp : c.phase = .encrypt) (hr : c.rcnt ≠ 0#32) :
    engineStep c = some (encryptRoundStep c) := by
  simp only [engineStep, hp, if_neg hr]

/-- A decryption with rounds left takes a decrypt round step (R148). -/
theorem engineStep_of_decrypt (hp : c.phase = .decrypt) (hr : c.rcnt ≠ 0#32) :
    engineStep c = some (decryptRoundStep c) := by
  simp only [engineStep, hp, if_neg hr]

/-- Settles O40: the enabled step is the encrypt round, and the model's round is the one written out. -/
theorem encryptRoundStepIsTheWrittenOutRound : Obligations.EncryptRoundStepIsTheWrittenOutRound := by
  rintro c _ _ _ hp hr rfl rfl rfl
  exact engineStep_of_encrypt hp hr

/-- Settles O41: the enabled step is the decrypt round, and the model's round is the one written out. -/
theorem decryptRoundStepIsTheWrittenOutRound : Obligations.DecryptRoundStepIsTheWrittenOutRound := by
  rintro c _ _ hp hr rfl rfl
  exact engineStep_of_decrypt hp hr

/-- Settles O42, with the finish step as a whole state. -/
theorem finishStepStoresOnlyForTheBytePath : Obligations.FinishStepStoresOnlyForTheBytePath := by
  intro c
  constructor
  · intro hi
    simp only [engineStep, hi]
  · intro hb hr
    rw [engineStep_of_no_round_left hb hr, finishStep_eq]
    rfl

-- ---------------------------------------------------------------- blocks under a key

/-- Settles O44: each direction undoes all the rounds of the other, the last one first. -/
theorem encryptAndDecryptAreInverse : Obligations.EncryptAndDecryptAreInverse := by
  intro k n b
  rw [decryptBlock, encryptBlock, decryptBlock, encryptBlock, decRounds_encRounds k n n le_rfl,
    encRounds_decRounds k n n le_rfl, Nat.sub_self]
  exact ⟨rfl, rfl⟩

/-- Settles O45: the operation starts with no round left, and the finish step keeps `V`. -/
theorem zeroRoundsIsTheIdentity : Obligations.ZeroRoundsIsTheIdentity := by
  refine ⟨fun _ _ => ⟨rfl, rfl⟩, fun s t hk hr h => ?_⟩
  rw [exec_encr_of_key hk, exec_decr_of_key hk] at h
  obtain h | h := h <;> cases h
  · exact ⟨_, engineStep_of_no_round_left (by simp) hr, rfl, finishStep_v _⟩
  · exact ⟨_, engineStep_of_no_round_left (by simp) hr, rfl, finishStep_v _⟩

-- ---------------------------------------------------------------- whole operations

/-- A command that leaves an idle engine encrypting has started an encryption (R146, R176). -/
theorem Effect.eq_startEncrypt (h : Effect c i d) (hi : c.phase = .idle) (hd : d.phase = .encrypt) :
    ∃ q e, d = startEncrypt q e := by
  obtain ⟨_, q, e, rfl | rfl⟩ | ⟨hp, _⟩ := h.starts_or_keeps_sequencer
  · exact ⟨q, e, rfl⟩
  · cases hd
  · rw [hp, hi] at hd
    cases hd

/-- A command that leaves an idle engine decrypting has started a decryption (R147, R177). -/
theorem Effect.eq_startDecrypt (h : Effect c i d) (hi : c.phase = .idle) (hd : d.phase = .decrypt) :
    ∃ q e, d = startDecrypt q e := by
  obtain ⟨_, q, e, rfl | rfl⟩ | ⟨hp, _⟩ := h.starts_or_keeps_sequencer
  · cases hd
  · exact ⟨q, e, rfl⟩
  · rw [hp, hi] at hd
    cases hd

/-- No command touches the port or the moves to come. -/
theorem exec_port_moves (h : exec i s = .next t) : t.port = s.port ∧ t.moves = s.moves := by
  obtain ⟨_, _, _, _, e⟩ | ⟨_, _, e⟩ := exec_cases i s <;> rw [e] at h <;> cases h
  · exact ⟨rfl, rfl⟩
  · exact ⟨rfl, rfl⟩

/-- After the last command of a host the run takes the engine steps. -/
theorem run_engineSteps_of_exec (hp : s.port = none) (hm : s.moves = []) (h : exec i s = .next t)
    (steps : engineSteps n t.core = some c) : run n t = .next (t.withCore c) := by
  obtain ⟨port, moves⟩ := exec_port_moves h
  exact run_engineSteps (port.trans hp) (moves.trans hm) steps

/-- What any command that starts an encryption leads to, once the engine has taken its steps (R153). -/
theorem run_of_encryption_started (hi : s.core.phase = .idle) (hp : s.port = none) (hm : s.moves = [])
    (h : exec i s = .next t) (ht : t.core.phase = .encrypt) :
    run (t.core.rounds.toNat + 1) t = .next (t.withCore
      { t.core with
        v := encryptBlock t.core.key t.core.rounds.toNat t.core.v, sum := Config.delta * t.core.rounds, rcnt := 0#32,
        phase := .idle, sto := false,
        obuf := if t.core.sto = true then blockToBytes (encryptBlock t.core.key t.core.rounds.toNat t.core.v)
          else t.core.obuf }) := by
  obtain ⟨q, e, started⟩ := (exec_effect h).eq_startEncrypt hi ht
  refine run_engineSteps_of_exec hp hm h ?_
  rw [started]
  exact engineSteps_encrypt_all e q

/-- What any command that starts a decryption leads to, once the engine has taken its steps (R154). -/
theorem run_of_decryption_started (hi : s.core.phase = .idle) (hp : s.port = none) (hm : s.moves = [])
    (h : exec i s = .next t) (ht : t.core.phase = .decrypt) :
    run (t.core.rounds.toNat + 1) t = .next (t.withCore
      { t.core with
        v := decryptBlock t.core.key t.core.rounds.toNat t.core.v, sum := 0#32, rcnt := 0#32, phase := .idle,
        sto := false,
        obuf := if t.core.sto = true then blockToBytes (decryptBlock t.core.key t.core.rounds.toNat t.core.v)
          else t.core.obuf }) := by
  obtain ⟨q, e, started⟩ := (exec_effect h).eq_startDecrypt hi ht
  refine run_engineSteps_of_exec hp hm h ?_
  rw [started]
  exact engineSteps_decrypt_all e q

/-- Settles O46: the recursion is the model's own, and either command starts an encryption. -/
theorem encryptOperationComputesEncryptBlock : Obligations.EncryptOperationComputesEncryptBlock := by
  refine ⟨fun k i b => ⟨rfl, _, _, _, rfl, rfl, rfl, rfl⟩, fun s t hi hp hm h ht => ?_⟩
  obtain h | h := h
  · exact run_of_encryption_started hi hp hm h ht
  · exact run_of_encryption_started hi hp hm h ht

/-- Settles O47: the recursion is the model's own, and either command starts a decryption. -/
theorem decryptOperationComputesDecryptBlock : Obligations.DecryptOperationComputesDecryptBlock := by
  refine ⟨fun k n i b _ => ⟨rfl, rfl, _, _, _, rfl, rfl, rfl, rfl⟩, fun s t hi hp hm h ht => ?_⟩
  obtain h | h := h
  · exact run_of_decryption_started hi hp hm h ht
  · exact run_of_decryption_started hi hp hm h ht

-- ---------------------------------------------------------------- a busy machine and its port

/-- A word of `RDSTAT`'s opcode answers the status or, with an operand, `IllegalCommand`, and writes nothing (R76, R123). -/
theorem acceptWord_of_rdstat_op (h : opField w = 0x60#8) (s : State) :
    ∃ r, acceptWord w s = .next (s.answer r) ∧ (r = 0#4 ++ status s.core ∨ r = 5#4 ++ 0#32) := by
  rw [← opField_append_argField w, h]
  by_cases h0 : argField w = 0#32
  · rw [h0]
    exact ⟨_, acceptWord_rdstat s, .inl rfl⟩
  · exact ⟨_, acceptWord_rdstat_of_arg_ne_zero h0 s, .inr rfl⟩

/-- Settles O11: without `rst` a step is the engine's turn or the acceptance of a word, which has `RDSTAT`'s opcode. -/
theorem busyMachineOnlyAdvancesOrAnswersStatus : Obligations.BusyMachineOnlyAdvancesOrAnswersStatus := by
  intro s t hb hr h
  obtain ⟨_, _, e⟩ | ⟨ms, hm, _⟩ | ⟨u, hcore, hrsp, e | ⟨w, ha, e⟩⟩ := step_cases s
  · rw [e] at h
    cases h
  · exact absurd hm (hr ms)
  · obtain ⟨c, he⟩ := exists_engineStep_of_busy hb
    rw [e, engineTurn_of_some (hcore ▸ he)] at h
    cases h
    exact .inl ⟨he, hrsp⟩
  · rw [← hcore] at hb ⊢
    obtain ⟨r, answers, response⟩ := acceptWord_of_rdstat_op ((accepts_iff_of_busy hb).1 ha) { u with port := none }
    rw [e, answers] at h
    cases h
    rw [← hrsp]
    exact .inr ⟨rfl, response.imp (congrArg (u.responses ++ [·])) (congrArg (u.responses ++ [·]))⟩

/-- Moves that only give the engine its turn or present words of `RDSTAT`'s opcode, in any order (U3). -/
def OnlyEngineOrStatus (ms : List Move) : Prop :=
  ∀ m ∈ ms, m = .engine ∨ ∃ w : CmdWord, m = .present w ∧ opField w = 0x60#8

/-- Engine steps in a row are the enabled one and the others after it. -/
theorem engineSteps_succ : engineSteps (n + 1) c = some d ↔ ∃ e, engineStep c = some e ∧ engineSteps n e = some d := by
  rw [engineSteps]
  cases engineStep c <;> simp

/-- Status reads among the engine's steps do not change what the engine reaches, and cost one step each (R157, U3). -/
theorem exists_run_of_engineSteps (hp : s.port = none) (hm : OnlyEngineOrStatus s.moves)
    (h : engineSteps n s.core = some c) : ∃ m t, m ≤ s.moves.length + n ∧ run m s = .next t ∧ t.core = c := by
  generalize hms : s.moves = ms at hm ⊢
  induction ms generalizing s n with
  | nil => exact ⟨n, _, by simp, run_engineSteps hp hms h, rfl⟩
  | cons m ms ih =>
    obtain ⟨now, later⟩ := List.forall_mem_cons.1 hm
    obtain rfl | ⟨w, rfl, hw⟩ := now
    · cases n with
      | zero =>
        cases h
        exact ⟨0, s, Nat.zero_le _, rfl, rfl⟩
      | succ n =>
        obtain ⟨d, enabled, rest⟩ := engineSteps_succ.1 h
        have first : step s = .next { s with core := d, moves := ms } :=
          (step_of_engine_busy (phase_ne_idle_of_engineStep enabled) hms).trans
            (congrArg _ (engineTurn_of_some (s := { s with moves := ms }) enabled))
        obtain ⟨m, t, bound, ends, ht⟩ := ih (s := { s with core := d, moves := ms }) hp rest rfl later
        exact ⟨m + 1, t, by rw [List.length_cons]; omega, (run_succ m s _ first).trans ends, ht⟩
    · obtain ⟨r, answers, _⟩ := acceptWord_of_rdstat_op hw { s with moves := ms }
      have first : step s = .next (State.answer { s with moves := ms } r) :=
        (step_of_present_accepted hp hms (accepts_eq.2 (.inl hw))).trans answers
      obtain ⟨m, t, bound, ends, ht⟩ := ih (s := State.answer { s with moves := ms } r) hp h rfl later
      exact ⟨m + 1, t, by rw [List.length_cons]; omega, (run_succ m s _ first).trans ends, ht⟩

/-- Settles O49: the run reaches what the engine steps reach, and these end idle. -/
theorem everyInterleavingOfStatusReadsEndsInTheSameState :
    Obligations.EveryInterleavingOfStatusReadsEndsInTheSameState := by
  intro s c hb hp hm h
  obtain ⟨n, t, bound, ends, ht⟩ := exists_run_of_engineSteps hp hm h
  obtain ⟨d, hd, idle⟩ := engineSteps_to_idle s.core hb
  obtain rfl := Option.some.inj (hd.symm.trans h)
  exact ⟨n, t, bound, ends, ht, idle⟩

end Sys2Proof.Machine
end

section
/-! PROOFS. The family 43_codec.md: the converter, the output buffer and the byte path, and the byte path against the word
path. -/

namespace Sys2Proof.Machine

variable {c : TeaCore} {s : State} {v : Block} {b0 b1 b2 b3 b4 b5 b6 b7 : Byte}

-- ---------------------------------------------------------------- the converter

/-- Eight bytes and no overflow are a block, most significant byte first in each word (R170, R171). -/
theorem blockIn_of_bytes (bytes : c.ibuf = [b0, b1, b2, b3, b4, b5, b6, b7]) (hovf : c.iovf = false) :
    blockIn c = some { v0 := be32 b0 b1 b2 b3, v1 := be32 b4 b5 b6 b7 } :=
  blockIn_eq_some.2 ⟨hovf, bytes ▸ rfl⟩

/-- The bytes of a block, put into the input buffer, are that block again (R170, R171). -/
theorem blockIn_blockToBytes (hovf : c.iovf = false) : blockIn { c with ibuf := blockToBytes v } = some v :=
  blockIn_eq_some.2 ⟨hovf, bytesToBlock_blockToBytes v⟩

/-- `LDBLK` with a block in the input buffer loads it (R171). -/
theorem exec_ldblk_of_some (h : blockIn s.core = some v) :
    exec .ldblk s = .next ((s.withCore (loadBlock v s.core)).answer (rspWord .ok 0#32)) := by
  simp only [exec, execLdblk, h, respond_eq]

/-- `LDBLK` without a block in the input buffer only answers (R171, R203). -/
theorem exec_ldblk_of_none (h : blockIn s.core = none) :
    exec .ldblk s = .next (s.answer (rspWord .invalidBlockLength 0#32)) := by
  simp only [exec, execLdblk, h, raise_eq]

/-- `STBLK` always fills the output buffer (R172). -/
theorem exec_stblk (s : State) : exec .stblk s = .next ((s.withCore (fill s.core)).answer (rspWord .ok 0#32)) := rfl

/-- Settles O25: the input buffer holds a block exactly with 8 bytes and no overflow. -/
theorem loadBlockConvertsEightBytesOrRefusesTheLength : Obligations.LoadBlockConvertsEightBytesOrRefusesTheLength :=
  ⟨decode_encode .ldblk,
    fun _ _ _ _ _ _ _ _ _ bytes hovf => exec_ldblk_of_some (blockIn_of_bytes bytes hovf),
    fun _ h => exec_ldblk_of_none (blockIn_eq_none.2 h)⟩

/-- Settles O26: a fill is the whole effect, and the bytes of a block are those written out. -/
theorem storeBlockReplacesTheOutputBuffer : Obligations.StoreBlockReplacesTheOutputBuffer :=
  ⟨decode_encode .stblk, exec_stblk⟩

-- ---------------------------------------------------------------- the output buffer

/-- `POPB` on an empty output buffer only answers (R174, R203). -/
theorem exec_popb_of_empty (h : s.core.obuf.length < 1) :
    exec .popb s = .next (s.answer (rspWord .outputUnderrun 0#32)) := by
  simp only [exec, execPopb, memRead1_zero_eq_none.2 h, raise_eq]

/-- `POPW` answers the four oldest bytes as a word and removes them (R175). -/
theorem exec_popw_cons {rest : List Byte} (h : s.core.obuf = b0 :: b1 :: b2 :: b3 :: rest) :
    exec .popw s = .next ((s.withCore { s.core with obuf := rest }).answer (rspWord .ok (be32 b0 b1 b2 b3))) := by
  simp only [exec, execPopw, h, memRead4, List.drop_zero, respond_eq, dropOut, List.drop_succ_cons]

/-- `POPW` with fewer than four bytes to pop only answers (R175, R203). -/
theorem exec_popw_of_short (h : s.core.obuf.length < 4) :
    exec .popw s = .next (s.answer (rspWord .outputUnderrun 0#32)) := by
  simp only [exec, execPopw, memRead4_zero_eq_none.2 h, raise_eq]

/-- Settles O27, by whether the output buffer is empty. -/
theorem popByteRemovesTheOldestByteOrUnderruns : Obligations.PopByteRemovesTheOldestByteOrUnderruns :=
  ⟨decode_encode .popb, fun _ => ⟨fun _ _ => exec_popb_cons, exec_popb_of_empty⟩⟩

/-- Settles O28, by whether the output buffer holds four bytes. -/
theorem popWordRemovesFourBytesOrUnderruns : Obligations.PopWordRemovesFourBytesOrUnderruns :=
  ⟨decode_encode .popw, fun _ => ⟨fun _ _ _ _ _ => exec_popw_cons, exec_popw_of_short⟩⟩

-- ---------------------------------------------------------------- the two directions of an operation

/-- The directions of an operation: what `ENC`, `DEC` and `ENCR`, `DECR` say twice is said once for a direction. -/
inductive Direction where
  | encrypt
  | decrypt

namespace Direction

/-- The fused command, which takes its block from `IBUF` and leaves the result in `OBUF` (R176, R177). -/
def byteCommand : Direction → Instr
  | encrypt => .enc
  | decrypt => .dec

/-- The word-path command, which works on `V` (R146, R147). -/
def wordCommand : Direction → Instr
  | encrypt => .encr
  | decrypt => .decr

/-- How the operation starts, with the new `STO`. -/
def start : Direction → Bool → TeaCore → TeaCore
  | encrypt => startEncrypt
  | decrypt => startDecrypt

/-- The operation as a function of the key, the round count and the block (R153, R154). -/
def cipher : Direction → Key → Nat → Block → Block
  | encrypt => encryptBlock
  | decrypt => decryptBlock

/-- The `SUM` that the operation ends with, from the round count (R25). -/
def finalSum : Direction → Word → Word
  | encrypt, n => Config.delta * n
  | decrypt, _ => 0#32

/-- The direction that undoes this one (R155). -/
def opposite : Direction → Direction
  | encrypt => decrypt
  | decrypt => encrypt

/-- TEA-CORE after the whole operation on the block in `V`, started with `STO = sto`. -/
def finished (dir : Direction) (sto : Bool) (c : TeaCore) : TeaCore :=
  { c with
    v := dir.cipher c.key c.rounds.toNat c.v, sum := dir.finalSum c.rounds, rcnt := 0#32, phase := .idle, sto := false,
    obuf := if sto = true then blockToBytes (dir.cipher c.key c.rounds.toNat c.v) else c.obuf }

variable (dir : Direction)

/-- The engine takes a started operation to `finished` (R153, R154). -/
theorem engineSteps_start (sto : Bool) (c : TeaCore) :
    engineSteps (c.rounds.toNat + 1) (dir.start sto c) = some (dir.finished sto c) := by
  cases dir with
  | encrypt => exact engineSteps_encrypt_all c sto
  | decrypt => exact engineSteps_decrypt_all c sto

/-- Storing at the finish step is what `STBLK` does after it (R152, R172). -/
theorem fill_finished (c : TeaCore) : fill (dir.finished false c) = dir.finished true c := rfl

/-- The opposite direction gives the block back (R155). -/
theorem opposite_cipher_cipher (k : Key) (n : Nat) (v : Block) :
    dir.opposite.cipher k n (dir.cipher k n v) = v := by
  obtain ⟨decrypted, encrypted⟩ := encryptAndDecryptAreInverse k n v
  cases dir with
  | encrypt => exact decrypted
  | decrypt => exact encrypted

/-- With a key the word-path command starts the engine on the block in `V` (R146, R147). -/
theorem exec_wordCommand (hk : s.core.keyv = true) :
    exec dir.wordCommand s = .next ((s.withCore (dir.start false s.core)).answer (rspWord .ok 0#32)) := by
  cases dir with
  | encrypt => exact exec_encr_of_key hk
  | decrypt => exact exec_decr_of_key hk

/-- With a key and a block in the input buffer the fused command loads the block and starts the engine (R176, R177). -/
theorem exec_byteCommand (hk : s.core.keyv = true) (hv : blockIn s.core = some v) :
    exec dir.byteCommand s =
      .next ((s.withCore (dir.start true (loadBlock v s.core))).answer (rspWord .ok 0#32)) := by
  cases dir with
  | encrypt => simp only [byteCommand, exec, execEnc, hk, if_true, hv, respond_eq, start]
  | decrypt => simp only [byteCommand, exec, execDec, hk, if_true, hv, respond_eq, start]

/-- Without a key the fused command answers `NoKey`, whatever the length (R211). -/
theorem exec_byteCommand_of_no_key (hk : s.core.keyv = false) :
    exec dir.byteCommand s = .next (s.answer (rspWord .noKey 0#32)) := by
  cases dir with
  | encrypt => exact if_neg (ne_true_of_eq_false hk)
  | decrypt => exact if_neg (ne_true_of_eq_false hk)

/-- With a key and no block in the input buffer the fused command refuses the length (R176, R177). -/
theorem exec_byteCommand_of_no_block (hk : s.core.keyv = true) (hv : blockIn s.core = none) :
    exec dir.byteCommand s = .next (s.answer (rspWord .invalidBlockLength 0#32)) := by
  cases dir with
  | encrypt => simp only [byteCommand, exec, execEnc, hk, if_true, hv, raise_eq]
  | decrypt => simp only [byteCommand, exec, execDec, hk, if_true, hv, raise_eq]

end Direction

/-- Settles O29: the three cases of a fused command, for encryption. -/
theorem byteEncryptLoadsTheBlockAndStartsTheEngine : Obligations.ByteEncryptLoadsTheBlockAndStartsTheEngine :=
  ⟨decode_encode .enc,
    fun _ _ _ _ _ _ _ _ _ hk bytes hovf => Direction.encrypt.exec_byteCommand hk (blockIn_of_bytes bytes hovf),
    fun _ hk => Direction.encrypt.exec_byteCommand_of_no_key hk,
    fun _ hk h => Direction.encrypt.exec_byteCommand_of_no_block hk (blockIn_eq_none.2 h)⟩

/-- Settles O30: the three cases of a fused command, for decryption. -/
theorem byteDecryptLoadsTheBlockAndStartsTheEngine : Obligations.ByteDecryptLoadsTheBlockAndStartsTheEngine :=
  ⟨decode_encode .dec,
    fun _ _ _ _ _ _ _ _ _ hk bytes hovf => Direction.decrypt.exec_byteCommand hk (blockIn_of_bytes bytes hovf),
    fun _ hk => Direction.decrypt.exec_byteCommand_of_no_key hk,
    fun _ hk h => Direction.decrypt.exec_byteCommand_of_no_block hk (blockIn_eq_none.2 h)⟩

-- ---------------------------------------------------------------- the fused and the unfused form

/-- A machine whose host issues the program from now on is an issuing one. -/
theorem State.with_program (hp : s.port = none) (is : List Instr) :
    { s with moves := program is } = State.issuing s.core is s.responses := by
  rw [State.issuing, hp]

section
variable (dir : Direction) (hi : c.phase = .idle) (hk : c.keyv = true) (hv : blockIn c = some v) (r : List RspWord)
include hi hk hv

/-- The fused command alone: its step, the rounds and the finish step (R245). -/
theorem run_issuing_byteCommand :
    run (c.rounds.toNat + 2) (State.issuing c [dir.byteCommand] r) =
      .next (State.issuing (dir.finished true (loadBlock v c)) [] (r ++ [rspWord .ok 0#32])) := by
  rw [run_issuing_idle (c.rounds.toNat + 1) hi (dir.exec_byteCommand hk hv)]
  exact run_engineSteps rfl rfl (dir.engineSteps_start true (loadBlock v c))

/-- The unfused form: the step of `LDBLK`, then the operation with `STBLK` held behind it (R178, R245). -/
theorem run_issuing_ldblk_wordCommand_stblk :
    run (c.rounds.toNat + 4) (State.issuing c [.ldblk, dir.wordCommand, .stblk] r) =
      .next (State.issuing (fill (dir.finished false (loadBlock v c))) []
        (r ++ [rspWord .ok 0#32] ++ [rspWord .ok 0#32] ++ [rspWord .ok 0#32])) := by
  rw [run_issuing_idle (d := loadBlock v c) (c.rounds.toNat + 3) hi (exec_ldblk_of_some hv)]
  exact run_issuing_start (c := loadBlock v c) hi (by decide) (dir.exec_wordCommand hk)
    (dir.engineSteps_start false (loadBlock v c)) rfl (exec_stblk _)

end

/-- The fused and the unfused form end in one state of TEA-CORE, with the transformed block in `OBUF` (R178). -/
theorem fused_and_unfused_agree (dir : Direction) (hi : s.core.phase = .idle) (hk : s.core.keyv = true)
    (hp : s.port = none) (hv : blockIn s.core = some v) :
    ∃ t u, run (s.core.rounds.toNat + 2) { s with moves := program [dir.byteCommand] } = .next t ∧
      run (s.core.rounds.toNat + 4) { s with moves := program [.ldblk, dir.wordCommand, .stblk] } = .next u ∧
      t.core = u.core ∧ t.core.obuf = blockToBytes (dir.cipher s.core.key s.core.rounds.toNat v) := by
  rw [State.with_program hp, State.with_program hp]
  exact ⟨_, _, run_issuing_byteCommand dir hi hk hv _, run_issuing_ldblk_wordCommand_stblk dir hi hk hv _,
    (dir.fill_finished _).symm, rfl⟩

/-- Settles O52: `fused_and_unfused_agree` for each direction; without a key the length is not looked at. -/
theorem fusedAndUnfusedFormsAgree : Obligations.FusedAndUnfusedFormsAgree := by
  constructor
  · intro s v hi hk hovf hp bytes
    have hv : blockIn s.core = some v := blockIn_eq_some.2 ⟨hovf, bytes⟩
    exact ⟨fused_and_unfused_agree .encrypt hi hk hp hv, fused_and_unfused_agree .decrypt hi hk hp hv⟩
  · intro s hk hlen
    exact ⟨Direction.encrypt.exec_byteCommand_of_no_key hk, Direction.decrypt.exec_byteCommand_of_no_key hk,
      exec_ldblk_of_none (blockIn_eq_none.2 (.inl hlen))⟩

/-- Settles O53: the bytes in `OBUF` are the transformed block's, and the opposite direction gives the block back. -/
theorem bytePathRoundTripRestoresTheBlock : Obligations.BytePathRoundTripRestoresTheBlock := by
  intro s b there back directions hi hk hovf hp bytes hlen
  obtain ⟨dir, rfl, rfl⟩ : ∃ dir : Direction, there = dir.byteCommand ∧ back = dir.opposite.byteCommand :=
    directions.elim (fun h => ⟨.encrypt, h⟩) (fun h => ⟨.decrypt, h⟩)
  obtain ⟨v, hv⟩ := Option.ne_none_iff_exists'.1 fun h => bytesToBlock_eq_none.1 h hlen
  rw [State.with_program hp]
  refine ⟨_, run_issuing_byteCommand dir hi hk (blockIn_eq_some.2 ⟨hovf, bytes ▸ hv⟩) _, rfl, ?_⟩
  refine ⟨_, run_issuing_byteCommand (c := { dir.finished true (loadBlock v s.core) with ibuf := _ }) dir.opposite rfl hk
    (blockIn_blockToBytes hovf) _, ?_⟩
  calc blockToBytes (dir.opposite.cipher s.core.key s.core.rounds.toNat (dir.cipher s.core.key s.core.rounds.toNat v))
    _ = blockToBytes v := congrArg blockToBytes (dir.opposite_cipher_cipher _ _ v)
    _ = b := blockToBytes_of_bytesToBlock hv

end Sys2Proof.Machine
end

section
/-! PROOFS. The family 60_exceptions.md: an error changes nothing, and the commands that raise none. -/

namespace Sys2Proof.Machine

/-- Settles O34: a word that is not answered OK raises an error, on the state as it is and with data 0. -/
theorem anErrorChangesNothing : Obligations.AnErrorChangesNothing := by
  intro w s t r h hr code
  obtain ⟨e, _, _, _, raises⟩ | ⟨_, c, d, _, _, responds⟩ := acceptWord_cases w s
  · cases raises.symm.trans h
    cases List.append_cancel_left hr
    exact ⟨rfl, rspWord_data e 0#32⟩
  · cases responds.symm.trans h
    cases List.append_cancel_left hr
    exact absurd (rspWord_code .ok d) code

/-- Settles O35: each of the commands is a response whatever the state; for `SETR` that is `setRounds_rcw`. -/
theorem commandsWithoutErrorsAlwaysAnswerOk : Obligations.CommandsWithoutErrorsAlwaysAnswerOk := by
  intro i s hi
  cases i with
  | nop | clri | pushb | pushw | clro | rdr | wrv0 | wrv1 | rdv0 | rdv1 | stblk | rdstat | rdbsz | rdksz =>
    exact ⟨_, _, rfl, rfl⟩
  | setr n => exact ⟨_, _, setRounds_rcw n s, rfl⟩
  | popb | popw | keyld | ldblk | encr | decr | enc | dec => exact absurd hi (by decide)

end Sys2Proof.Machine
end

section
/-! PROOFS. The family 70_reset_and_hazards.md: reset, what makes a step stop, how long an operation keeps the machine busy,
and a host's program on the byte path. -/

namespace Sys2Proof.Machine

variable {c d e : TeaCore} {i j : Instr} {is : List Instr} {r r' : List RspWord} {s : State} {w : CmdWord}
  {ms : List Move} {v : Block} {n : Nat}

-- ---------------------------------------------------------------- reset, and host behaviour outside the table

theorem step_of_rst (hm : s.moves = .rst :: ms) : step s = .next (assertReset { s with moves := ms }) := by
  simp only [step, turn, hm]

theorem step_of_outsideTable (hm : s.moves = .outsideTable :: ms) : step s = .refused .hostOutsideTable := by
  simp only [step, turn, hm]

/-- Settles O2: the step is `assertReset`, and the reset state is idle. -/
theorem resetInputGivesTheResetStateFromAnyState : Obligations.ResetInputGivesTheResetStateFromAnyState :=
  ⟨fun _ _ hm => step_of_rst hm, fun _ => accepts_eq.2 (.inr rfl)⟩

/-- Settles O12: of the kinds of step, reset, the engine's turn and the acceptance of a word all give a next state. -/
theorem stepStopsOnlyOnAHostOutsideTheTable : Obligations.StepStopsOnlyOnAHostOutsideTheTable := by
  refine fun s => ⟨fun ⟨_, hm⟩ => step_of_outsideTable hm, fun inTable => ?_⟩
  obtain ⟨ms, hm, _⟩ | ⟨_, _, resets⟩ | ⟨t, _, _, engine | ⟨w, _, accepting⟩⟩ := step_cases s
  · exact absurd hm (inTable ms)
  · exact ⟨_, resets⟩
  · exact ⟨_, engine⟩
  · obtain ⟨_, _, _, answers, _⟩ := everyAcceptedWordGivesExactlyOneResponse w { t with port := none }
    exact ⟨_, accepting.trans answers⟩

-- ---------------------------------------------------------------- how long an operation keeps the machine busy

/-- A row of engine steps has all its beginnings. -/
theorem exists_engineSteps_of_add {m : Nat} (h : engineSteps (m + n) c = some d) :
    ∃ e, engineSteps m c = some e ∧ engineSteps n e = some d := by
  induction m generalizing c with
  | zero => exact ⟨c, rfl, by rwa [Nat.zero_add] at h⟩
  | succ m ih =>
    rw [Nat.add_right_comm, engineSteps_succ] at h
    obtain ⟨b, enabled, rest⟩ := h
    obtain ⟨e, before, after⟩ := ih rest
    exact ⟨e, engineSteps_succ.2 ⟨b, enabled, before⟩, after⟩

/-- A busy engine is still busy after any number of steps up to `RCNT`: an engine step is yet to come (R148, R245). -/
theorem exists_engineSteps_busy (hb : c.phase ≠ .idle) (hn : n ≤ c.rcnt.toNat) :
    ∃ d, engineSteps n c = some d ∧ d.phase ≠ .idle := by
  obtain ⟨k, hk⟩ := Nat.exists_eq_add_of_le hn
  obtain ⟨last, whole, _⟩ := engineSteps_to_idle c hb
  rw [hk, Nat.add_assoc] at whole
  obtain ⟨d, before, after⟩ := exists_engineSteps_of_add whole
  obtain ⟨_, enabled, _⟩ := engineSteps_succ.1 after
  exact ⟨d, before, phase_ne_idle_of_engineStep enabled⟩

/-- An idle machine with a word on its port and no move to come accepts the word, legal or not (R73, R76). -/
theorem step_accepts_held (hi : s.core.phase = .idle) (hp : s.port = some w) (hm : s.moves = []) :
    step s = acceptWord w { s with port := none } := by
  have ha : accepts s.core.phase w = true := accepts_eq.2 (.inr hi)
  rw [step_of_no_moves hm]
  simp only [portTurn, hp, ha, if_true]

/-- Settles O48: while the word is held the run is the engine's steps, which end idle after `RCNT + 1` and not before. -/
theorem operationEndsAfterItsRoundsAndTheFinishStep : Obligations.OperationEndsAfterItsRoundsAndTheFinishStep := by
  intro s w hb hw hp hm
  have presents : onlyPresents s.moves := hm ▸ onlyPresents_program []
  constructor
  · intro n hn
    obtain ⟨d, steps, busy⟩ := exists_engineSteps_busy hb hn
    exact ⟨_, run_held hw hp presents steps, busy⟩
  · obtain ⟨d, steps, idle⟩ := engineSteps_to_idle s.core hb
    exact ⟨_, run_held hw hp presents steps, idle, hp, rfl, step_accepts_held idle hp hm⟩

-- ---------------------------------------------------------------- an operation inside a program

theorem exists_exec_eq_next (i : Instr) (s : State) : ∃ t, exec i s = .next t := by
  obtain ⟨_, _, _, _, h⟩ | ⟨_, _, h⟩ := exec_cases i s
  · exact ⟨_, h⟩
  · exact ⟨_, h⟩

/-- A command `i` that starts an operation of `n` rounds takes `n + 2` steps of a program; the commands behind it then run
as on a machine that was idle all along (R73, R245). -/
theorem run_issuing_operation (m : Nat) (hi : c.phase = .idle) (hj : opField (encode j) ≠ 0x60#8)
    (start : exec i (State.issuing c (j :: is) r) = .next (State.issuing d (j :: is) r'))
    (engine : engineSteps (n + 1) d = some e) (he : e.phase = .idle) :
    run (n + 2 + (m + 1)) (State.issuing c (i :: j :: is) r) = run (m + 1) (State.issuing e (j :: is) r') := by
  obtain ⟨t, next⟩ := exists_exec_eq_next j (State.issuing e is r')
  calc run (n + 2 + (m + 1)) (State.issuing c (i :: j :: is) r)
    _ = run (n + 3 + m) (State.issuing c (i :: j :: is) r) := congrArg (run · _) (by omega)
    _ = run m t := run_add (run_issuing_start hi hj start engine he next) m
    _ = run (m + 1) (State.issuing e (j :: is) r') :=
      (run_succ m _ _ ((step_program he rfl rfl (decode_encode j)).trans next)).symm

/-- What `POPB` answers when the oldest byte is `x`: `OK` with the byte in the low bits (R174). -/
def popResponse (x : Byte) : RspWord := 0#4 ++ (0#24 ++ x)

/-- A program of one `POPB` for each byte of the output buffer answers the bytes in order and empties it (R174). -/
theorem run_issuing_pops (hi : c.phase = .idle) (bs : List Byte) (r : List RspWord) :
    run bs.length (State.issuing { c with obuf := bs } (List.replicate bs.length .popb) r) =
      .next (State.issuing { c with obuf := [] } [] (r ++ bs.map popResponse)) := by
  induction bs generalizing r with
  | nil => rw [List.map_nil, List.append_nil]; rfl
  | cons b bs ih =>
    have first : exec .popb (State.issuing { c with obuf := b :: bs } (List.replicate bs.length .popb) r) =
        .next (State.issuing { c with obuf := bs } (List.replicate bs.length .popb) (r ++ [popResponse b])) :=
      exec_popb_cons rfl
    rw [List.length_cons, List.replicate_succ, run_issuing_idle (c := { c with obuf := b :: bs }) bs.length hi first, ih,
      List.append_assoc]
    rfl

theorem length_of_bytesToBlock {bs : List Byte} (h : bytesToBlock bs = some v) : bs.length = 8 := by
  by_contra hne
  rw [bytesToBlock_eq_none.2 hne] at h
  cases h

/-- A host that pushed the bytes of a block after `CLRI` has that block to consume (R57, R171). -/
theorem blockIn_filled {bs : List Byte} (hv : bytesToBlock bs = some v) (c : TeaCore) :
    blockIn (c.filled bs) = some v := by
  have eight := length_of_bytesToBlock hv
  refine blockIn_eq_some.2 ⟨decide_eq_false (by omega), ?_⟩
  rw [TeaCore.filled, List.take_of_length_le (by omega), hv]

/-- TEA-CORE after a block was pushed after `CLRI` and transformed by the fused command. -/
def TeaCore.transformed (c : TeaCore) (dir : Direction) (bs : List Byte) (v : Block) : TeaCore :=
  dir.finished true (loadBlock v (c.filled bs))

/-- The byte path up to the pops: `CLRI`, eight `PUSHB`, the fused command, its rounds and its finish step (R245). -/
theorem run_issuing_bytePath (dir : Direction) (b : Vector Byte 8) (hv : bytesToBlock b.toList = some v)
    (hi : c.phase = .idle) (hk : c.keyv = true) (r : List RspWord) :
    run (c.rounds.toNat + 19)
        (State.issuing c (.clri :: b.toList.map .pushb ++ [dir.byteCommand] ++ List.replicate 8 .popb) r) =
      run 8 (State.issuing (c.transformed dir b.toList v) (List.replicate 8 .popb)
        (r ++ List.replicate 10 (0#4 ++ 0#32))) :=
  have pushes := run_issuing_pushes (c := c) (is := dir.byteCommand :: List.replicate 8 .popb) pushes_pushb b.toList
    (c.rounds.toNat + 10) hi [] (r ++ [rspWord .ok 0#32])
  calc run (c.rounds.toNat + 19) _
    _ = run (c.rounds.toNat + 18) (State.issuing (c.filled [])
          (b.toList.map .pushb ++ dir.byteCommand :: List.replicate 8 .popb) (r ++ [rspWord .ok 0#32])) := by
      rw [List.append_assoc]
      exact run_issuing_idle (c.rounds.toNat + 18) hi (exec_clri_issuing ..)
    _ = run (c.rounds.toNat + 10) (State.issuing (c.filled b.toList) (dir.byteCommand :: List.replicate 8 .popb)
          (r ++ [rspWord .ok 0#32] ++ List.replicate 8 (rspWord .ok 0#32))) := by
      rwa [List.nil_append, List.flatMap_singleton', Vector.length_toList, Nat.add_comm] at pushes
    _ = run 8 (State.issuing (c.transformed dir b.toList v) (List.replicate 8 .popb)
          (r ++ [rspWord .ok 0#32] ++ List.replicate 8 (rspWord .ok 0#32) ++ [rspWord .ok 0#32])) :=
      run_issuing_operation (c := c.filled b.toList) 7 hi (by decide)
        (dir.exec_byteCommand hk (blockIn_filled hv c))
        (dir.engineSteps_start true (loadBlock v (c.filled b.toList))) rfl
    _ = _ := by rw [List.append_assoc, List.append_assoc]; rfl

/-- Settles O51: the byte path up to the pops, which find the transformed block's bytes, in each direction. -/
theorem bytePathProgramTakesRoundsPlusNineteenSteps : Obligations.BytePathProgramTakesRoundsPlusNineteenSteps := by
  intro s b v start f directions hi hk hp hv hm
  obtain ⟨dir, rfl, rfl⟩ : ∃ dir : Direction, start = dir.byteCommand ∧ f = dir.cipher :=
    directions.elim (fun h => ⟨.encrypt, h⟩) (fun h => ⟨.decrypt, h⟩)
  rw [congrArg (run _) (State.eq_issuing hp hm)]
  exact ⟨_, (run_issuing_bytePath dir b hv hi hk s.responses).trans
    (run_issuing_pops (c := s.core.transformed dir b.toList v) rfl (blockToBytes _) _), rfl, rfl, rfl, rfl, rfl⟩

end Sys2Proof.Machine
end
